-- ==== Sys2Proof/Word.lean ====
section
/-! DEFINITION. The widths of the hardware's values (00_scope R4, R6; 10_state R20): every value is unsigned. -/

namespace Sys2Proof

/-- A general register, a timer, a memory cell, the random byte: 8 bits. -/
abbrev Byte := BitVec 8

/-- A value of `pc` and a call-stack entry: 12 bits (10_state R23, R25). -/
abbrev Addr := BitVec 12

/-- An instruction word (30_encoding R70), and the index register `I` (10_state R24): 16 bits. -/
abbrev Word := BitVec 16

/-- A register number, 0 to 15 by construction of the decoder (10_state R21). -/
abbrev Reg := Fin 16

end Sys2Proof
end

