-- ==== Sys2Proof/Syntax.lean ====
section
/-! DEFINITION. The instructions: one constructor per row of spec/opcode_table.json, in its order (30_encoding R75, R76). -/

namespace Sys2Proof

/-- The 33 defined instructions and the undefined opcode. Register numbers and the row count of `drw` are 0 to 15, immediates
are the unsigned fields of the word (30_encoding R73). -/
inductive Instr where
  /-- `00E0` CLS (R160) -/
  | cls
  /-- `00EE` RET (R101) -/
  | ret
  /-- `1nnn` JP nnn (R102) -/
  | jp (nnn : Addr)
  /-- `2nnn` CALL nnn (R103) -/
  | call (nnn : Addr)
  /-- `3xnn` SE Vx, nn (R104) -/
  | seVxNn (x : Reg) (nn : Byte)
  /-- `4xnn` SNE Vx, nn (R105) -/
  | sneVxNn (x : Reg) (nn : Byte)
  /-- `5xy0` SE Vx, Vy (R106) -/
  | seVxVy (x y : Reg)
  /-- `6xnn` LD Vx, nn (R122) -/
  | ldVxNn (x : Reg) (nn : Byte)
  /-- `7xnn` ADD Vx, nn (R123) -/
  | addVxNn (x : Reg) (nn : Byte)
  /-- `8xy0` LD Vx, Vy (R124) -/
  | ldVxVy (x y : Reg)
  /-- `8xy1` OR Vx, Vy (R125) -/
  | orVxVy (x y : Reg)
  /-- `8xy2` AND Vx, Vy (R126) -/
  | andVxVy (x y : Reg)
  /-- `8xy3` XOR Vx, Vy (R127) -/
  | xorVxVy (x y : Reg)
  /-- `8xy4` ADD Vx, Vy (R128) -/
  | addVxVy (x y : Reg)
  /-- `8xy5` SUB Vx, Vy (R129) -/
  | subVxVy (x y : Reg)
  /-- `8xy6` SHR Vx, Vy (R130) -/
  | shrVxVy (x y : Reg)
  /-- `8xy7` SUBN Vx, Vy (R131) -/
  | subnVxVy (x y : Reg)
  /-- `8xyE` SHL Vx, Vy (R132) -/
  | shlVxVy (x y : Reg)
  /-- `9xy0` SNE Vx, Vy (R107) -/
  | sneVxVy (x y : Reg)
  /-- `Annn` LD I, nnn (R140) -/
  | ldINnn (nnn : Addr)
  /-- `Cxnn` RND Vx, nn (R133) -/
  | rndVxNn (x : Reg) (nn : Byte)
  /-- `Dxyn` DRW Vx, Vy, n (R161) -/
  | drw (x y : Reg) (n : Fin 16)
  /-- `Ex9E` SKP Vx (R175) -/
  | skp (x : Reg)
  /-- `ExA1` SKNP Vx (R176) -/
  | sknp (x : Reg)
  /-- `Fx07` LD Vx, DT (R171) -/
  | ldVxDt (x : Reg)
  /-- `Fx0A` LD Vx, K (R177) -/
  | ldVxK (x : Reg)
  /-- `Fx15` LD DT, Vx (R172) -/
  | ldDtVx (x : Reg)
  /-- `Fx18` LD ST, Vx (R173) -/
  | ldStVx (x : Reg)
  /-- `Fx1E` ADD I, Vx (R141) -/
  | addIVx (x : Reg)
  /-- `Fx29` LD F, Vx (R142) -/
  | ldFVx (x : Reg)
  /-- `Fx33` LD B, Vx (R143) -/
  | ldBVx (x : Reg)
  /-- `Fx55` LD [I], Vx (R144) -/
  | ldMemVx (x : Reg)
  /-- `Fx65` LD Vx, [I] (R145) -/
  | ldVxMem (x : Reg)
  /-- UNDEF: any word no pattern matches (R76, R77); it carries the word, which only the `diag` output shows (R220). -/
  | undef (w : Word)
  deriving DecidableEq, Repr

end Sys2Proof
end

