-- ==== Sys2Proof/Decode.lean ====
section
/-! DEFINITION. Decoding and encoding (30_encoding R70 to R79): the fields of a word, the opcode table, the total decoder of a
word, the decoder of bytes, the encoder. -/

namespace Sys2Proof

/-! The canonical fields of a word (R71). -/

/-- `op`, bits 15 to 12: the dispatch key. -/
def fieldOp (w : Word) : BitVec 4 := w.extractLsb' 12 4

/-- `x`, bits 11 to 8. -/
def fieldX (w : Word) : Reg := (w.extractLsb' 8 4).toFin

/-- `y`, bits 7 to 4. -/
def fieldY (w : Word) : Reg := (w.extractLsb' 4 4).toFin

/-- `n`, bits 3 to 0. -/
def fieldN (w : Word) : Fin 16 := (w.extractLsb' 0 4).toFin

/-- `nn`, bits 7 to 0. -/
def fieldNN (w : Word) : Byte := w.extractLsb' 0 8

/-- `nnn`, bits 11 to 0. -/
def fieldNNN (w : Word) : Addr := w.extractLsb' 0 12

/-! The decoder (R74). -/

/-- Family 0: the two words `00E0` and `00EE` exactly. -/
def decode0 (w : Word) : Instr :=
  if w = 0x00E0#16 then .cls else if w = 0x00EE#16 then .ret else .undef w

/-- Family 8: the sub-opcode is the low nibble (41_alu R121; 6, 7 and E are PRESUMED, log entry 5). -/
def decode8 (w : Word) : Instr :=
  match (fieldN w).val with
  | 0x0 => .ldVxVy (fieldX w) (fieldY w)
  | 0x1 => .orVxVy (fieldX w) (fieldY w)
  | 0x2 => .andVxVy (fieldX w) (fieldY w)
  | 0x3 => .xorVxVy (fieldX w) (fieldY w)
  | 0x4 => .addVxVy (fieldX w) (fieldY w)
  | 0x5 => .subVxVy (fieldX w) (fieldY w)
  | 0x6 => .shrVxVy (fieldX w) (fieldY w)
  | 0x7 => .subnVxVy (fieldX w) (fieldY w)
  | 0xE => .shlVxVy (fieldX w) (fieldY w)
  | _ => .undef w

/-- Family E: the sub-opcode is the low byte. -/
def decodeE (w : Word) : Instr :=
  match (fieldNN w).toNat with
  | 0x9E => .skp (fieldX w)
  | 0xA1 => .sknp (fieldX w)
  | _ => .undef w

/-- Family F: the sub-opcode is the low byte. -/
def decodeF (w : Word) : Instr :=
  match (fieldNN w).toNat with
  | 0x07 => .ldVxDt (fieldX w)
  | 0x0A => .ldVxK (fieldX w)
  | 0x15 => .ldDtVx (fieldX w)
  | 0x18 => .ldStVx (fieldX w)
  | 0x1E => .addIVx (fieldX w)
  | 0x29 => .ldFVx (fieldX w)
  | 0x33 => .ldBVx (fieldX w)
  | 0x55 => .ldMemVx (fieldX w)
  | 0x65 => .ldVxMem (fieldX w)
  | _ => .undef w

/-- `decode(w)`, total on all 65536 words (R74, R79). -/
def decodeWord (w : Word) : Instr :=
  match (fieldOp w).toNat with
  | 0x0 => decode0 w
  | 0x1 => .jp (fieldNNN w)
  | 0x2 => .call (fieldNNN w)
  | 0x3 => .seVxNn (fieldX w) (fieldNN w)
  | 0x4 => .sneVxNn (fieldX w) (fieldNN w)
  | 0x5 => if (fieldN w).val = 0 then .seVxVy (fieldX w) (fieldY w) else .undef w
  | 0x6 => .ldVxNn (fieldX w) (fieldNN w)
  | 0x7 => .addVxNn (fieldX w) (fieldNN w)
  | 0x8 => decode8 w
  | 0x9 => if (fieldN w).val = 0 then .sneVxVy (fieldX w) (fieldY w) else .undef w
  | 0xA => .ldINnn (fieldNNN w)
  | 0xC => .rndVxNn (fieldX w) (fieldNN w)
  | 0xD => .drw (fieldX w) (fieldY w) (fieldN w)
  | 0xE => decodeE w
  | 0xF => decodeF w
  | _ => .undef w

/-- Why bytes are not an instruction. -/
inductive DecodeError where
  /-- Fewer than the two bytes every instruction has (R70). -/
  | truncated
  deriving DecidableEq, Repr

/-- The word of two bytes in memory order: the byte at the lower address is the high byte (R70, 20_memory R53). -/
def wordOfBytes (hi lo : Byte) : Word := hi ++ lo

/-- Decode the instruction at the head of bytes in memory order; the rest of the bytes comes back. -/
def decodeBytes : List Byte → Except DecodeError (Instr × List Byte)
  | hi :: lo :: rest => .ok (decodeWord (wordOfBytes hi lo), rest)
  | _ => .error .truncated

/-! The opcode table (R75), apart from the decoder: a word `w` is an instruction of a row when `w and mask = value`. -/

/-- A row of the opcode table. -/
structure OpcodeRow where
  mask : Word
  value : Word
  deriving DecidableEq, Repr

/-- The row matches the word. -/
def OpcodeRow.selects (r : OpcodeRow) (w : Word) : Bool := w &&& r.mask == r.value

/-- Rows 1 to 33 of R75, in its order (row k at position k - 1). -/
def opcodeTable : List OpcodeRow :=
  [⟨0xFFFF, 0x00E0⟩, ⟨0xFFFF, 0x00EE⟩, ⟨0xF000, 0x1000⟩, ⟨0xF000, 0x2000⟩, ⟨0xF000, 0x3000⟩, ⟨0xF000, 0x4000⟩,
   ⟨0xF00F, 0x5000⟩, ⟨0xF000, 0x6000⟩, ⟨0xF000, 0x7000⟩] ++
  [⟨0xF00F, 0x8000⟩, ⟨0xF00F, 0x8001⟩, ⟨0xF00F, 0x8002⟩, ⟨0xF00F, 0x8003⟩, ⟨0xF00F, 0x8004⟩, ⟨0xF00F, 0x8005⟩,
   ⟨0xF00F, 0x8006⟩, ⟨0xF00F, 0x8007⟩, ⟨0xF00F, 0x800E⟩] ++
  [⟨0xF00F, 0x9000⟩, ⟨0xF000, 0xA000⟩, ⟨0xF000, 0xC000⟩, ⟨0xF000, 0xD000⟩, ⟨0xF0FF, 0xE09E⟩, ⟨0xF0FF, 0xE0A1⟩] ++
  [⟨0xF0FF, 0xF007⟩, ⟨0xF0FF, 0xF00A⟩, ⟨0xF0FF, 0xF015⟩, ⟨0xF0FF, 0xF018⟩, ⟨0xF0FF, 0xF01E⟩, ⟨0xF0FF, 0xF029⟩,
   ⟨0xF0FF, 0xF033⟩, ⟨0xF0FF, 0xF055⟩, ⟨0xF0FF, 0xF065⟩]

/-- Some row matches: the word is a defined instruction (R75); otherwise it is undefined (R77). -/
def definedWord (w : Word) : Bool := opcodeTable.any (·.selects w)

/-- The number R75 gives the instruction's row; an undefined opcode has none. -/
def Instr.row : Instr → Option Nat
  | .cls => some 1
  | .ret => some 2
  | .jp _ => some 3
  | .call _ => some 4
  | .seVxNn _ _ => some 5
  | .sneVxNn _ _ => some 6
  | .seVxVy _ _ => some 7
  | .ldVxNn _ _ => some 8
  | .addVxNn _ _ => some 9
  | .ldVxVy _ _ => some 10
  | .orVxVy _ _ => some 11
  | .andVxVy _ _ => some 12
  | .xorVxVy _ _ => some 13
  | .addVxVy _ _ => some 14
  | .subVxVy _ _ => some 15
  | .shrVxVy _ _ => some 16
  | .subnVxVy _ _ => some 17
  | .shlVxVy _ _ => some 18
  | .sneVxVy _ _ => some 19
  | .ldINnn _ => some 20
  | .rndVxNn _ _ => some 21
  | .drw _ _ _ => some 22
  | .skp _ => some 23
  | .sknp _ => some 24
  | .ldVxDt _ => some 25
  | .ldVxK _ => some 26
  | .ldDtVx _ => some 27
  | .ldStVx _ => some 28
  | .addIVx _ => some 29
  | .ldFVx _ => some 30
  | .ldBVx _ => some 31
  | .ldMemVx _ => some 32
  | .ldVxMem _ => some 33
  | .undef _ => none

/-! The encoder, from the formats of R72. -/

/-- A register number or a row count as the four bits of its field. -/
def nibble (k : Fin 16) : BitVec 4 := BitVec.ofFin k

/-- Format NNN: `op`, `nnn`. -/
def formatNNN (op : BitVec 4) (nnn : Addr) : Word := op ++ nnn

/-- Format XNN: `op`, `x`, `nn`. -/
def formatXNN (op : BitVec 4) (x : Reg) (nn : Byte) : Word := op ++ nibble x ++ nn

/-- Formats XYS and XYN: `op`, `x`, `y`, the low nibble. -/
def formatXYN (op : BitVec 4) (x y : Reg) (n : BitVec 4) : Word := op ++ nibble x ++ nibble y ++ n

/-- The word of an instruction. -/
def encode : Instr → Word
  | .cls => 0x00E0
  | .ret => 0x00EE
  | .jp nnn => formatNNN 0x1 nnn
  | .call nnn => formatNNN 0x2 nnn
  | .seVxNn x nn => formatXNN 0x3 x nn
  | .sneVxNn x nn => formatXNN 0x4 x nn
  | .seVxVy x y => formatXYN 0x5 x y 0x0
  | .ldVxNn x nn => formatXNN 0x6 x nn
  | .addVxNn x nn => formatXNN 0x7 x nn
  | .ldVxVy x y => formatXYN 0x8 x y 0x0
  | .orVxVy x y => formatXYN 0x8 x y 0x1
  | .andVxVy x y => formatXYN 0x8 x y 0x2
  | .xorVxVy x y => formatXYN 0x8 x y 0x3
  | .addVxVy x y => formatXYN 0x8 x y 0x4
  | .subVxVy x y => formatXYN 0x8 x y 0x5
  | .shrVxVy x y => formatXYN 0x8 x y 0x6
  | .subnVxVy x y => formatXYN 0x8 x y 0x7
  | .shlVxVy x y => formatXYN 0x8 x y 0xE
  | .sneVxVy x y => formatXYN 0x9 x y 0x0
  | .ldINnn nnn => formatNNN 0xA nnn
  | .rndVxNn x nn => formatXNN 0xC x nn
  | .drw x y n => formatXYN 0xD x y (nibble n)
  | .skp x => formatXNN 0xE x 0x9E
  | .sknp x => formatXNN 0xE x 0xA1
  | .ldVxDt x => formatXNN 0xF x 0x07
  | .ldVxK x => formatXNN 0xF x 0x0A
  | .ldDtVx x => formatXNN 0xF x 0x15
  | .ldStVx x => formatXNN 0xF x 0x18
  | .addIVx x => formatXNN 0xF x 0x1E
  | .ldFVx x => formatXNN 0xF x 0x29
  | .ldBVx x => formatXNN 0xF x 0x33
  | .ldMemVx x => formatXNN 0xF x 0x55
  | .ldVxMem x => formatXNN 0xF x 0x65
  | .undef w => w

/-- The two bytes of an instruction in memory order: the high byte first (R70, 20_memory R53). -/
def bytesOfWord (w : Word) : List Byte := [w.extractLsb' 8 8, w.extractLsb' 0 8]

/-- The bytes of an instruction in memory order. -/
def encodeBytes (i : Instr) : List Byte := bytesOfWord (encode i)

/-- The word whose bits, numbered as spec/opcode_table.json numbers them, are the low `nbits` bits of `w`, every further bit 0. -/
def tableWord (nbits w : Nat) : Word := BitVec.ofNat 16 (w % 2 ^ nbits)

/-- What this decoder reads from an instruction whose bits are `w` (the host's question): the word is laid out in bytes, the
high byte first, and given to `decodeBytes`. -/
def decodeTableWord (nbits w : Nat) : Option Instr :=
  match decodeBytes (bytesOfWord (tableWord nbits w)) with
  | .ok (i, _) => some i
  | .error _ => none

end Sys2Proof
end

