-- ==== Sys2Proof/Config.lean ====
section
/-! DEFINITION. The parameters of the hardware (00_scope R4) and the one free value. The font table FONT[0..79] is a parameter too;
it stands in Machine/Font.lean. -/

namespace Sys2Proof

/-- `MEM_SIZE`: bytes of main memory. -/
abbrev Config.memSize : Nat := 4096

/-- `FONT_BASE`: address of the first glyph byte. -/
abbrev Config.fontBase : Nat := 0x050

/-- `FONT_LEN`: bytes of the font table. -/
abbrev Config.fontLen : Nat := 80

/-- `PROG_BASE`: load address of the program and reset value of `pc`. -/
abbrev Config.progBase : Nat := 0x200

/-- `PROG_MAX`: the largest program image, in bytes. -/
abbrev Config.progMax : Nat := 3584

/-- FREE VALUE (log entry 3). The random byte of the `k`-th Cycle that the schedule gives no inputs for: `rnd` is a draw under
no law (10_state R31, decision D20), so no proof may know its value. -/
opaque Config.freeRnd : Nat → Byte

end Sys2Proof
end

