-- ==== Sys2Proof/Machine/State.lean ====
section
/-! DEFINITION. The whole architectural state (10_state R20), the inputs a Cycle samples (R31), the host's operations (00_scope R8),
the reasons a step can stop, and the state after Reset with an empty image (R35). -/

namespace Sys2Proof.Machine

/-- The Engine Driver's two states (10_state R30). -/
inductive RunState where
  | running
  | halted
  deriving DecidableEq, Repr

/-- Why `run` became Halted (10_state R30, 60_exceptions R200); the codes are `HaltCause.code`. -/
inductive HaltCause where
  | none
  | stopRequest
  | stackOverflow
  | stackUnderflow
  | fetchRange
  | memRange
  | keyRange
  deriving DecidableEq, Repr

/-- The inputs of one Cycle (10_state R31). -/
structure Inputs where
  keys : BitVec 16
  stopReq : Bool
  rnd : Byte
  deriving DecidableEq, Repr

/-- The operations the host invokes, the only moves it has (00_scope R8, 20_memory R62, 60_exceptions R218). -/
inductive HostOp where
  | reset (image : List Byte)
  | cycle (inputs : Inputs)
  | tick
  | frameAck
  deriving DecidableEq, Repr

/-- Main memory as the bytes that differ from `initialByte`, addresses strictly rising (Machine/Memory.lean, `Memory.wf`). -/
abbrev Memory := List Host.Cell

/-- The framebuffer, row-major: 32 rows, row 0 topmost, of 64 pixels; bit `x` of row `y` is pixel `(x, y)`, which the spec numbers
`y*64 + x`; 1 = on (10_state R27). -/
abbrev FrameBuffer := Vector (BitVec 64) 32

/-- The state of the core, the values on its input ports, and what the host is going to do. -/
structure State where
  /-- `V[0]` to `V[15]`; `V[15]` is `VF` (R21, R22) -/
  v : Vector Byte 16
  /-- the program counter (R23) -/
  pc : Addr
  /-- `I`, the index register (R24) -/
  index : Word
  /-- the call-stack entries (R25) -/
  stack : Vector Addr 16
  /-- the number of call-stack entries in use, 0 to 16 (R25) -/
  sp : Fin 17
  /-- main memory (R26) -/
  mem : Memory
  /-- the framebuffer (R27) -/
  fb : FrameBuffer
  /-- the delay timer (R28) -/
  dt : Byte
  /-- the sound timer (R28) -/
  st : Byte
  /-- `redrawPending` (R29) -/
  redraw : Bool
  /-- Running or Halted (R30) -/
  run : RunState
  /-- why Halted (R30) -/
  haltCause : HaltCause
  /-- input port: `keys[k] = 1` when key `k` is down, as the latest Cycle sampled it (R31) -/
  keys : BitVec 16
  /-- input port: the stop request, as the latest Cycle sampled it (R31) -/
  stopReq : Bool
  /-- input port: the random byte, as the latest Cycle sampled it (R31) -/
  rnd : Byte
  /-- MODEL'S OWN (log entry 1): the operations the host is going to invoke, oldest first -/
  schedule : List HostOp
  /-- MODEL'S OWN (log entry 3): how many bytes of `Config.freeRnd` have been drawn -/
  draws : Nat
  deriving DecidableEq, Repr

/-- Why a step faults. -/
inductive Fault where
  /-- Raised by the memory primitives of Machine/Memory.lean (through Machine/Ops.lean) for an address outside 0x000 to 0xFFF, where
  20_memory R52 and R63 say "requires". Safe: the machine stops. No step raises it, because every instruction checks its whole
  range first and halts with MemRange (10_state R33 item 6). -/
  | addressOutsideMemory
  deriving DecidableEq, Repr

/-- Why a step has no meaning. -/
inductive Refusal where
  /-- Raised by `exec` for an instruction that has no meaning yet. Safe: nothing is claimed of it. -/
  | notModelled (mnemonic : String)
  /-- Raised by the Reset operation for an image longer than 3584 bytes, which is no legal Reset (70_reset_and_hazards R231: "a
  model should refuse it"). Safe: nothing is claimed of what follows. -/
  | imageTooLong
  deriving DecidableEq, Repr

/-- What a step answers. -/
abbrev Result := Host.Outcome State Fault Refusal

/-- The state after Reset with an empty image (10_state R35). `mem` lists nothing: every byte is as Reset leaves it. The ports and
the model's own fields have values the log names (entries 1, 2, 3). -/
def State.reset : State where
  v := Vector.replicate 16 0
  pc := BitVec.ofNat 12 Config.progBase
  index := 0
  stack := Vector.replicate 16 0
  sp := 0
  mem := []
  fb := Vector.replicate 32 0
  dt := 0
  st := 0
  redraw := false
  run := .running
  haltCause := .none
  keys := 0
  stopReq := false
  rnd := 0
  schedule := []
  draws := 0

end Sys2Proof.Machine
end

