-- ==== Sys2Proof/Machine/Memory.lean ====
section
/-! DEFINITION. Main memory (20_memory R50 to R57): 4096 bytes, one byte an access, held as the canonical list of the bytes that
differ from what Reset with an empty image leaves. -/

namespace Sys2Proof.Machine

/-- What a byte that is not listed reads as: its value after Reset with an empty image (10_state R35): the font at 0x050 to
0x09F, zero elsewhere. -/
def initialByte (a : Nat) : Byte :=
  if Config.fontBase ≤ a ∧ a < Config.fontBase + Config.fontLen then font.getD (a - Config.fontBase) 0 else 0

/-- The canonical form from address `lo` on: addresses strictly rising and inside memory, no entry equal to `initialByte`. -/
def Memory.wfFrom : Nat → Memory → Bool
  | _, [] => true
  | lo, (a, b) :: rest => decide (lo ≤ a) && decide (a < Config.memSize) && (b != initialByte a) && Memory.wfFrom (a + 1) rest

/-- The canonical form. -/
def Memory.wf (m : Memory) : Bool := Memory.wfFrom 0 m

/-- The byte the list gives an address. -/
def Memory.lookup : Memory → Nat → Byte
  | [], a => initialByte a
  | (b, x) :: rest, a => if b = a then x else Memory.lookup rest a

/-- Add an entry in front unless the address reads so anyway. -/
def Memory.consByte (a : Nat) (x : Byte) (rest : Memory) : Memory :=
  if x = initialByte a then rest else (a, x) :: rest

/-- The list with one byte changed, in canonical form again. -/
def Memory.put : Memory → Nat → Byte → Memory
  | [], a, x => Memory.consByte a x []
  | (b, y) :: rest, a, x =>
    if a < b then Memory.consByte a x ((b, y) :: rest)
    else if a = b then Memory.consByte a x rest
    else (b, y) :: Memory.put rest a x

/-- `MemRead(a, 1)` (20_memory R52): nothing outside 0x000 to 0xFFF. -/
def Memory.read? (m : Memory) (a : Nat) : Option Byte :=
  if a < Config.memSize then some (m.lookup a) else none

/-- `MemWrite(a, 1, x)` (20_memory R52): nothing outside 0x000 to 0xFFF. -/
def Memory.write? (m : Memory) (a : Nat) (x : Byte) : Option Memory :=
  if a < Config.memSize then some (m.put a x) else none

/-- `n` bytes from address `a` up, in ascending order. -/
def Memory.readBytes? (m : Memory) : Nat → Nat → Option (List Byte)
  | _, 0 => some []
  | a, n + 1 =>
    match m.read? a with
    | none => none
    | some x =>
      match m.readBytes? (a + 1) n with
      | none => none
      | some xs => some (x :: xs)

/-- Bytes stored from address `a` up, in ascending order. -/
def Memory.writeBytes? : Memory → Nat → List Byte → Option Memory
  | m, _, [] => some m
  | m, a, x :: xs =>
    match m.write? a x with
    | none => none
    | some m' => m'.writeBytes? (a + 1) xs

/-- The entries of a program image loaded from address `a` up over memory as Reset leaves it (70_reset_and_hazards R230). -/
def imageCells : Nat → List Byte → Memory
  | _, [] => []
  | a, x :: xs => Memory.consByte a x (imageCells (a + 1) xs)

end Sys2Proof.Machine
end

