-- ==== Sys2Proof/Machine/Ops.lean ====
section
/-! DEFINITION. The named operations over registers, stack and memory that every meaning is written with (00_scope R7), entry into
Halted (60_exceptions R209), fetching an instruction's word (20_memory R63). The hardware has no return from a fatal
condition (60_exceptions R211), so there is no operation for one. -/

namespace Sys2Proof.Machine

/-- `VF`, the flag register (10_state R22). -/
def vf : Reg := 15

/-- `V[x]`. -/
def State.reg (s : State) (x : Reg) : Byte := s.v[x.val]

/-- `V[x] <- b`. -/
def State.setReg (s : State) (x : Reg) (b : Byte) : State := { s with v := s.v.set x.val b }

/-- `V[i] <- b` for the bytes `b` of a list and `i` rising from a first register; bytes past `V[15]` have no register. -/
def State.setRegsFrom (s : State) : Nat → List Byte → State
  | _, [] => s
  | i, b :: bs => if h : i < 16 then State.setRegsFrom (s.setReg ⟨i, h⟩ b) (i + 1) bs else s

/-- `pc <- t`: a 12-bit value, so every write is modulo 4096 (10_state R23). -/
def State.setPc (s : State) (t : Addr) : State := { s with pc := t }

/-- `I <- t`: a 16-bit value, so every write is modulo 65536 (10_state R24). -/
def State.setIndex (s : State) (t : Word) : State := { s with index := t }

/-- `DT <- b`. -/
def State.setDt (s : State) (b : Byte) : State := { s with dt := b }

/-- `ST <- b`. -/
def State.setSt (s : State) (b : Byte) : State := { s with st := b }

/-- Replace main memory. -/
def State.setMem (s : State) (m : Memory) : State := { s with mem := m }

/-- Replace the framebuffer and set `redraw` (43_display R165). -/
def State.showFrame (s : State) (fb : FrameBuffer) : State := { s with fb := fb, redraw := true }

/-- Enter Halted: `run` and `haltCause` change and nothing else (60_exceptions R209). -/
def State.halt (s : State) (c : HaltCause) : State := { s with run := .halted, haltCause := c }

/-- `raise <Cause>`: the one entry into Halted that every fatal condition takes (60_exceptions R209). -/
def raise (c : HaltCause) (s : State) : Result := .next (s.halt c)

/-- The code of a cause, the value of the 3-bit `haltCause` (10_state R30). -/
def HaltCause.code : HaltCause → BitVec 3
  | .none => 0
  | .stopRequest => 1
  | .stackOverflow => 2
  | .stackUnderflow => 3
  | .fetchRange => 4
  | .memRange => 5
  | .keyRange => 6

/-- `push(v)` (10_state R25): nothing when the stack is full. -/
def State.push? (s : State) (r : Addr) : Option State :=
  if h : s.sp.val < 16 then
    some { s with stack := s.stack.set s.sp.val r, sp := ⟨s.sp.val + 1, by omega⟩ }
  else none

/-- `pop()` (10_state R25): the entry read and the state after; the entry is not erased; nothing when the stack is empty. -/
def State.pop? (s : State) : Option (Addr × State) :=
  if h : 0 < s.sp.val then
    some (s.stack[s.sp.val - 1]'(by omega), { s with sp := ⟨s.sp.val - 1, by omega⟩ })
  else none

/-- `pc <- pc + 2` if the condition holds (40_cycle_control_flow R109). -/
def skipIf (c : Bool) (s : State) : Result := .next (if c then s.setPc (s.pc + 2) else s)

/-- Go on with `n` bytes read from address `a` up. -/
def loadThen (s : State) (a n : Nat) (k : List Byte → Result) : Result :=
  match s.mem.readBytes? a n with
  | some bs => k bs
  | none => .fault .addressOutsideMemory

/-- Store bytes from address `a` up. -/
def storeBytes (s : State) (a : Nat) (bs : List Byte) : Result :=
  match s.mem.writeBytes? a bs with
  | some m => .next (s.setMem m)
  | none => .fault .addressOutsideMemory

/-- `Fetch(pc)`: the byte at `pc` is the high byte, the byte at `pc + 1` the low byte (20_memory R63, R53). -/
def State.fetch? (s : State) : Option Word :=
  match s.mem.readBytes? s.pc.toNat 2 with
  | some (hi :: lo :: _) => some (wordOfBytes hi lo)
  | _ => none

/-- The Cycle's advance of `pc` before the execute step (40_cycle_control_flow R100 step 5). -/
def State.advance (s : State) : State := s.setPc (s.pc + 2)

/-- The ports hold the values a Cycle samples (10_state R31). -/
def State.sample (s : State) (i : Inputs) : State := { s with keys := i.keys, stopReq := i.stopReq, rnd := i.rnd }

/-- Reset with a program image (70_reset_and_hazards R230): the whole state of the core is built anew. What stands on the input
ports and what the host is going to do are not the core's and stay. -/
def State.resetTo (s : State) (image : List Byte) : State :=
  { State.reset with
    mem := imageCells Config.progBase image
    keys := s.keys, stopReq := s.stopReq, rnd := s.rnd, schedule := s.schedule, draws := s.draws }

/-- A counter that stops at 0 (44_timers_keys R170). -/
def countDown (b : Byte) : Byte := if b = 0 then 0 else b - 1

/-- Tick (44_timers_keys R170): both timers count down; in Halted too (decision D18). -/
def State.tick (s : State) : State := { s with dt := countDown s.dt, st := countDown s.st }

/-- FrameAck (43_display R165): in Halted too (decision D18). -/
def State.frameAck (s : State) : State := { s with redraw := false }

end Sys2Proof.Machine
end

