-- ==== Sys2Proof/Machine/Flags.lean ====
section
/-! DEFINITION. Every flag computation the spec gives (41_alu R120, 42_index_memory R141): operands as numbers, the exact result, a
comparison. -/

namespace Sys2Proof.Machine

/-- A flag as the byte written to `VF`: 1 or 0. -/
def flagByte (f : Bool) : Byte := if f then 1 else 0

/-- Carry of `a + b`: the sum prior to truncation exceeds 255. -/
def carryFlag (a b : Byte) : Bool := decide (a.toNat + b.toNat > 255)

/-- "No borrow" of `a - b`: minuend at least subtrahend. -/
def noBorrowFlag (a b : Byte) : Bool := decide (a.toNat ≥ b.toNat)

/-- The bit a right shift by one evicts. -/
def evictedRight (b : Byte) : Bool := b.getLsbD 0

/-- The bit a left shift by one evicts. -/
def evictedLeft (b : Byte) : Bool := b.getLsbD 7

/-- `I + b` leaves the 12-bit range, on the sum before it is reduced to 16 bits. -/
def indexOverflow (i : Word) (b : Byte) : Bool := decide (i.toNat + b.toNat > 0xFFF)

/-- `VF <- f`. -/
def State.setFlag (s : State) (f : Bool) : State := s.setReg vf (flagByte f)

/-- Write a result, then the flag: with `x = 15` the flag is what stays (R120, decision D5, log entry 7). -/
def writeResultFlag (x : Reg) (r : Byte) (f : Bool) (s : State) : Result := .next ((s.setReg x r).setFlag f)

end Sys2Proof.Machine
end

