-- ==== Sys2Proof/Machine/Operands.lean ====
section
/-! DEFINITION. Every operand form beyond a register or an immediate: the one data addressing mode and its range check
(42_index_memory R146, 20_memory R52), the glyph address (R142), the key queries (44_timers_keys R174), decimal digits (R143). -/

namespace Sys2Proof.Machine

/-- `I + k`, unreduced (42_index_memory R146). -/
def State.dataAddress (s : State) (k : Nat) : Nat := s.index.toNat + k

/-- The range check of an access of `n` bytes from `I` up: its highest address is at most 0xFFF; an access of no byte is in
range (20_memory R52, 60_exceptions R204). -/
def State.dataInRange (s : State) (n : Nat) : Bool := n == 0 || decide (s.dataAddress (n - 1) ≤ 0xFFF)

/-- The address of the glyph a byte selects: the whole byte counts, not its low four bits (42_index_memory R142). -/
def glyphAddress (b : Byte) : Word := BitVec.ofNat 16 (Config.fontBase + 5 * b.toNat)

/-- The three decimal digits of a byte, hundreds first (42_index_memory R143). -/
def decimalDigits (b : Byte) : List Byte :=
  [BitVec.ofNat 8 (b.toNat / 100), BitVec.ofNat 8 (b.toNat / 10 % 10), BitVec.ofNat 8 (b.toNat % 10)]

/-- The registers `V[0]` to `V[x]` in order. -/
def State.regsUpTo (s : State) (x : Reg) : List Byte := s.v.toList.take (x.val + 1)

/-- `isDown(k)` for the keys sampled by this Cycle (44_timers_keys R174). -/
def State.isDown (s : State) (k : Nat) : Bool := s.keys.getLsbD k

/-- `firstDown()`: the least key that is down, if any (44_timers_keys R174, decision D14, log entry 15). -/
def State.firstDown (s : State) : Option Nat := (List.range 16).find? fun k => s.isDown k

end Sys2Proof.Machine
end

