-- ==== Sys2Proof/Machine/Alu.lean ====
section
/-! DEFINITION. Register load, arithmetic, logic, shift and random instructions (41_alu R120 to R133). Operands are read before
anything is written; a flag is written after the result. -/

namespace Sys2Proof.Machine

/-- `6xnn` LD Vx, nn (R122). -/
def execLdVxNn (x : Reg) (nn : Byte) (s : State) : Result := .next (s.setReg x nn)

/-- `7xnn` ADD Vx, nn (R123): no flag. -/
def execAddVxNn (x : Reg) (nn : Byte) (s : State) : Result := .next (s.setReg x (s.reg x + nn))

/-- `8xy0` LD Vx, Vy (R124). -/
def execLdVxVy (x y : Reg) (s : State) : Result := .next (s.setReg x (s.reg y))

/-- `8xy1` OR Vx, Vy (R125): no flag. -/
def execOrVxVy (x y : Reg) (s : State) : Result := .next (s.setReg x (s.reg x ||| s.reg y))

/-- `8xy2` AND Vx, Vy (R126): no flag. -/
def execAndVxVy (x y : Reg) (s : State) : Result := .next (s.setReg x (s.reg x &&& s.reg y))

/-- `8xy3` XOR Vx, Vy (R127): no flag. -/
def execXorVxVy (x y : Reg) (s : State) : Result := .next (s.setReg x (s.reg x ^^^ s.reg y))

/-- `8xy4` ADD Vx, Vy (R128). -/
def execAddVxVy (x y : Reg) (s : State) : Result :=
  writeResultFlag x (s.reg x + s.reg y) (carryFlag (s.reg x) (s.reg y)) s

/-- `8xy5` SUB Vx, Vy (R129). -/
def execSubVxVy (x y : Reg) (s : State) : Result :=
  writeResultFlag x (s.reg x - s.reg y) (noBorrowFlag (s.reg x) (s.reg y)) s

/-- `8xy6` SHR Vx, Vy (R130): shifts `V[y]`; the old `V[x]` is not used. -/
def execShrVxVy (x y : Reg) (s : State) : Result :=
  writeResultFlag x (s.reg y >>> 1) (evictedRight (s.reg y)) s

/-- `8xy7` SUBN Vx, Vy (R131): the minuend is `V[y]`. -/
def execSubnVxVy (x y : Reg) (s : State) : Result :=
  writeResultFlag x (s.reg y - s.reg x) (noBorrowFlag (s.reg y) (s.reg x)) s

/-- `8xyE` SHL Vx, Vy (R132): shifts `V[y]`; the old `V[x]` is not used. -/
def execShlVxVy (x y : Reg) (s : State) : Result :=
  writeResultFlag x (s.reg y <<< 1) (evictedLeft (s.reg y)) s

/-- `Cxnn` RND Vx, nn (R133): the byte this Cycle sampled on `rnd`, masked. -/
def execRndVxNn (x : Reg) (nn : Byte) (s : State) : Result := .next (s.setReg x (s.rnd &&& nn))

end Sys2Proof.Machine
end

