-- ==== Sys2Proof/Machine/Control.lean ====
section
/-! DEFINITION. The control-flow instructions (40_cycle_control_flow R101 to R109) and the undefined opcode (30_encoding R76). When
an execute step starts, `pc` already holds the address of the instruction plus 2. -/

namespace Sys2Proof.Machine

/-- `00EE` RET (R101): StackUnderflow on an empty stack. -/
def execRet (s : State) : Result :=
  match s.pop? with
  | some (t, s') => .next (s'.setPc t)
  | none => raise .stackUnderflow s

/-- `1nnn` JP nnn (R102). -/
def execJp (nnn : Addr) (s : State) : Result := .next (s.setPc nnn)

/-- `2nnn` CALL nnn (R103): pushes the address of the next instruction; StackOverflow on a full stack. -/
def execCall (nnn : Addr) (s : State) : Result :=
  match s.push? s.pc with
  | some s' => .next (s'.setPc nnn)
  | none => raise .stackOverflow s

/-- `3xnn` SE Vx, nn (R104). -/
def execSeVxNn (x : Reg) (nn : Byte) (s : State) : Result := skipIf (s.reg x == nn) s

/-- `4xnn` SNE Vx, nn (R105). -/
def execSneVxNn (x : Reg) (nn : Byte) (s : State) : Result := skipIf (s.reg x != nn) s

/-- `5xy0` SE Vx, Vy (R106). -/
def execSeVxVy (x y : Reg) (s : State) : Result := skipIf (s.reg x == s.reg y) s

/-- `9xy0` SNE Vx, Vy (R107). -/
def execSneVxVy (x y : Reg) (s : State) : Result := skipIf (s.reg x != s.reg y) s

/-- UNDEF (30_encoding R76): a no-op; its diagnostic event is the output `State.diag` (R220). -/
def execUndef (_ : Word) (s : State) : Result := .next s

end Sys2Proof.Machine
end

