-- ==== Sys2Proof/Machine/Display.lean ====
section
/-! DEFINITION. The display instructions and the sprite compositor (43_display R160 to R166). -/

namespace Sys2Proof.Machine

/-- What a sprite draw builds up: the framebuffer, and whether a pixel has gone from on to off. -/
structure Canvas where
  fb : FrameBuffer
  collision : Bool
  deriving DecidableEq, Repr

/-- Pixel `(px, py)` of a framebuffer; outside the frame there is none, and this answers off (10_state R27). -/
def getPixel (fb : FrameBuffer) (px py : Nat) : Bool := if h : py < 32 then fb[py].getLsbD px else false

/-- Invert pixel `(px, py)`. -/
def flipPixel (fb : FrameBuffer) (px py : Nat) : FrameBuffer :=
  if h : py < 32 then fb.set py (fb[py] ^^^ (1#64 <<< px)) else fb

/-- The framebuffer with every pixel off. -/
def blankFrame : FrameBuffer := Vector.replicate 32 0

/-- Pixel `(px, py)`. -/
def State.pixel (s : State) (px py : Nat) : Bool := getPixel s.fb px py

/-- `fb[i]`, the spec's numbering of the pixels: `i = y*64 + x` (10_state R27). -/
def State.fbBit (s : State) (i : Nat) : Bool := s.pixel (i % 64) (i / 64)

/-- Bit `b` of a sprite row, the most significant first (R162). -/
def spriteBit (row : Byte) (b : Nat) : Bool := row.getLsbD (7 - b)

/-- One bit of a sprite row: a set bit inside the frame inverts its pixel, and collides if the pixel was on; a bit outside the frame
is dropped, never wrapped (R162, R163, R164). -/
def blitBit (row : Byte) (ox py : Nat) (c : Canvas) (b : Nat) : Canvas :=
  if spriteBit row b ∧ ox + b ≤ 63 ∧ py ≤ 31 then
    { fb := flipPixel c.fb (ox + b) py
      collision := c.collision || getPixel c.fb (ox + b) py }
  else c

/-- `Blit(row, ox, py)` (R162). -/
def blit (row : Byte) (ox py : Nat) (c : Canvas) : Canvas := (List.range 8).foldl (blitBit row ox py) c

/-- The rows of a sprite, each one below the last (R161). -/
def blitRows (ox : Nat) : Nat → List Byte → Canvas → Canvas
  | _, [], c => c
  | py, row :: rows, c => blitRows ox (py + 1) rows (blit row ox py c)

/-- `00E0` CLS (R160). -/
def execCls (s : State) : Result := .next (s.showFrame blankFrame)

/-- `Dxyn` DRW Vx, Vy, n (R161): the origin is read before `VF` is written, all `n` rows are range-checked and read, clipped or not
(decision D27, log entry 12). -/
def execDrw (x y : Reg) (n : Fin 16) (s : State) : Result :=
  if s.dataInRange n.val then
    loadThen s (s.dataAddress 0) n.val fun rows =>
      let c := blitRows ((s.reg x).toNat % 64) ((s.reg y).toNat % 32) rows { fb := s.fb, collision := false }
      .next ((s.setFlag c.collision).showFrame c.fb)
  else raise .memRange s

end Sys2Proof.Machine
end

