-- ==== Sys2Proof/Machine/IndexMemory.lean ====
section
/-! DEFINITION. Index-register and memory instructions (42_index_memory R140 to R146). `I` is changed by the first three only; the
range of a whole access is checked before anything is read or written. -/

namespace Sys2Proof.Machine

/-- `Annn` LD I, nnn (R140): zero-extended to 16 bits. -/
def execLdINnn (nnn : Addr) (s : State) : Result := .next (s.setIndex (nnn.setWidth 16))

/-- `Fx1E` ADD I, Vx (R141): `VF` is set on overflow and otherwise not written (decision D7, log entry 9). -/
def execAddIVx (x : Reg) (s : State) : Result :=
  let s' := s.setIndex (s.index + (s.reg x).setWidth 16)
  .next (if indexOverflow s.index (s.reg x) then s'.setFlag true else s')

/-- `Fx29` LD F, Vx (R142). -/
def execLdFVx (x : Reg) (s : State) : Result := .next (s.setIndex (glyphAddress (s.reg x)))

/-- `Fx33` LD B, Vx (R143). -/
def execLdBVx (x : Reg) (s : State) : Result :=
  if s.dataInRange 3 then storeBytes s (s.dataAddress 0) (decimalDigits (s.reg x)) else raise .memRange s

/-- `Fx55` LD [I], Vx (R144). -/
def execLdMemVx (x : Reg) (s : State) : Result :=
  if s.dataInRange (x.val + 1) then storeBytes s (s.dataAddress 0) (s.regsUpTo x) else raise .memRange s

/-- `Fx65` LD Vx, [I] (R145). -/
def execLdVxMem (x : Reg) (s : State) : Result :=
  if s.dataInRange (x.val + 1) then
    loadThen s (s.dataAddress 0) (x.val + 1) fun bs => .next (s.setRegsFrom 0 bs)
  else raise .memRange s

end Sys2Proof.Machine
end

