-- ==== Sys2Proof/Machine/TimersKeys.lean ====
section
/-! DEFINITION. Timer and key instructions (44_timers_keys R171 to R177). -/

namespace Sys2Proof.Machine

/-- `Fx07` LD Vx, DT (R171). -/
def execLdVxDt (x : Reg) (s : State) : Result := .next (s.setReg x s.dt)

/-- `Fx15` LD DT, Vx (R172). -/
def execLdDtVx (x : Reg) (s : State) : Result := .next (s.setDt (s.reg x))

/-- `Fx18` LD ST, Vx (R173). -/
def execLdStVx (x : Reg) (s : State) : Result := .next (s.setSt (s.reg x))

/-- `Ex9E` SKP Vx (R175): KeyRange for a key index above 15, which is not masked (decision D13, log entry 14). -/
def execSkp (x : Reg) (s : State) : Result :=
  if (s.reg x).toNat > 15 then raise .keyRange s else skipIf (s.isDown (s.reg x).toNat) s

/-- `ExA1` SKNP Vx (R176): KeyRange for a key index above 15. -/
def execSknp (x : Reg) (s : State) : Result :=
  if (s.reg x).toNat > 15 then raise .keyRange s else skipIf (!s.isDown (s.reg x).toNat) s

/-- `Fx0A` LD Vx, K (R177): with no key down `pc` goes back to this instruction, modulo 4096. -/
def execLdVxK (x : Reg) (s : State) : Result :=
  match s.firstDown with
  | some k => .next (s.setReg x (BitVec.ofNat 8 k))
  | none => .next (s.setPc (s.pc - 2))

end Sys2Proof.Machine
end

