-- ==== Sys2Proof/Machine/Cycle.lean ====
section
/-! DEFINITION. The core's four operations (00_scope R8): Cycle (40_cycle_control_flow R100), Reset (70_reset_and_hazards R230,
R231), Tick (44_timers_keys R170), FrameAck (43_display R165); and which one the host invokes next. -/

namespace Sys2Proof.Machine

/-- Cycle, on the inputs the ports hold (R100). The order of the tests is the priority (60_exceptions R210): already Halted, the stop
request, the fetch range, the instruction. -/
def cycle (s : State) : Result :=
  match s.run with
  | .halted => .next s
  | .running =>
    if s.stopReq then raise .stopRequest s
    else if s.pc = 0xFFF#12 then raise .fetchRange s
    else
      match s.fetch? with
      | some w => exec (decodeWord w) s.advance
      | none => .fault .addressOutsideMemory

/-- Reset: a longer image than the program space is refused (R231). -/
def resetOp (image : List Byte) (s : State) : Result :=
  if image.length ≤ Config.progMax then .next (s.resetTo image) else .refused .imageTooLong

/-- One operation of the host. -/
def hostOp (op : HostOp) (s : State) : Result :=
  match op with
  | .reset image => resetOp image s
  | .cycle inputs => cycle (s.sample inputs)
  | .tick => .next s.tick
  | .frameAck => .next s.frameAck

/-- The operation the host invokes next, and the state without it. When the schedule has run out the host goes on invoking Cycle with
`keys` and `stop_req` as they stand and a fresh free byte on `rnd` (log entries 1, 3). -/
def nextOp (s : State) : HostOp × State :=
  match s.schedule with
  | op :: rest => (op, { s with schedule := rest })
  | [] =>
    (.cycle { keys := s.keys, stopReq := s.stopReq, rnd := Config.freeRnd s.draws }, { s with draws := s.draws + 1 })

/-- A byte of a word put where the next fetch reads: the high byte at `pc`. -/
def Memory.placeWord (m : Memory) (a : Nat) (w : Word) : Memory :=
  (m.put a (w.extractLsb' 8 8)).put (a + 1) (w.extractLsb' 0 8)

/-- The state with a word where the next step fetches, and with what it takes for the next step to fetch at all: Running, a
fetchable `pc` (0x200 in place of 0xFFF), and a Cycle with no stop request as the host's next operation (log entry 27). -/
def State.readyToRun (s : State) (w : Word) : State :=
  let pc : Addr := if s.pc = 0xFFF#12 then BitVec.ofNat 12 Config.progBase else s.pc
  { s with
    pc := pc
    mem := s.mem.placeWord pc.toNat w
    run := .running
    haltCause := .none
    schedule := .cycle { keys := s.keys, stopReq := false, rnd := s.rnd } :: s.schedule }

end Sys2Proof.Machine
end

