-- ==== Sys2Proof/Machine/Step.lean ====
section
/-! DEFINITION. One step of the machine: the host's next operation (00_scope R8, 60_exceptions R218). -/

namespace Sys2Proof.Machine

/-- One operation of the host, taken from the schedule. -/
def step (s : State) : Host.Outcome State Fault Refusal := hostOp (nextOp s).1 (nextOp s).2

/-- The state with the instruction whose bits are `w` (numbered as spec/opcode_table.json numbers them, every bit from `nbits` up
being 0) where the very next step fetches and runs it. -/
def State.withFetchWord (s : State) (nbits w : Nat) : State := s.readyToRun (tableWord nbits w)

end Sys2Proof.Machine
end

