-- ==== Sys2Proof/Machine/Outputs.lean ====
section
/-! DEFINITION. The output ports (10_state R32) that are no state: the status a Cycle returns and the diagnostic event. -/

namespace Sys2Proof.Machine

/-- What a Cycle returns (60_exceptions R212). -/
inductive Status where
  | continue_
  | stopClean
  | fatal (code : BitVec 3)
  deriving DecidableEq, Repr

/-- The status of the Cycle that left this state: Continue while Running; once Halted, what the cause says, whether this Cycle halted
or an earlier one did (R212, R211). -/
def State.status (s : State) : Status :=
  match s.run with
  | .running => .continue_
  | .halted => if s.haltCause = .stopRequest then .stopClean else .fatal s.haltCause.code

/-- The `diag` event of a Cycle invoked in this state, with the inputs on the ports: the word and its address when the Cycle executes
an undefined opcode (60_exceptions R220). -/
def State.diag (s : State) : Option (Word × Addr) :=
  if s.run = .running ∧ s.stopReq = false ∧ s.pc ≠ 0xFFF#12 then
    match s.fetch? with
    | some w => if (decodeWord w).row = none then some (w, s.pc) else none
    | none => none
  else none

end Sys2Proof.Machine
end

