-- ==== Sys2Proof/Safety.lean ====
section
/-! DEFINITION. What claims are stated with: the invariant of the machine, what may change between two states, and which instruction
touches which state (10_state R33, R37). -/

namespace Sys2Proof.Machine

/-- The invariant (10_state R33): memory is in canonical form, and `haltCause` is None exactly when Running (item 5). Items 1, 2, 4
hold by the types of the fields; items 3 and 6 are that no step faults. -/
structure Inv (s : State) : Prop where
  memory : s.mem.wf = true
  cause : s.haltCause = .none ↔ s.run = .running

/-- The pieces of state that may change. -/
structure Touched where
  regs : List Reg := []
  pc : Bool := false
  index : Bool := false
  /-- call-stack entries -/
  stack : List Nat := []
  sp : Bool := false
  /-- addresses of main memory -/
  mem : List Nat := []
  fb : Bool := false
  dt : Bool := false
  st : Bool := false
  redraw : Bool := false
  /-- `run` and `haltCause` -/
  halt : Bool := false
  deriving DecidableEq, Repr

/-- From `s` to `t` nothing has changed but what `f` names. The input ports, the schedule and the draw counter are no instruction's
to change. -/
structure SameExcept (f : Touched) (s t : State) : Prop where
  regs : ∀ r, r ∉ f.regs → t.reg r = s.reg r
  pc : f.pc = false → t.pc = s.pc
  index : f.index = false → t.index = s.index
  stack : ∀ k : Fin 16, k.val ∉ f.stack → t.stack[k] = s.stack[k]
  sp : f.sp = false → t.sp = s.sp
  mem : ∀ a, a ∉ f.mem → t.mem.read? a = s.mem.read? a
  fb : f.fb = false → t.fb = s.fb
  dt : f.dt = false → t.dt = s.dt
  st : f.st = false → t.st = s.st
  redraw : f.redraw = false → t.redraw = s.redraw
  run : f.halt = false → t.run = s.run
  haltCause : f.halt = false → t.haltCause = s.haltCause
  keys : t.keys = s.keys
  stopReq : t.stopReq = s.stopReq
  rnd : t.rnd = s.rnd
  schedule : t.schedule = s.schedule
  draws : t.draws = s.draws

/-- The state has entered Halted with a cause, and nothing else has changed (60_exceptions R209). -/
structure HaltedBy (c : HaltCause) (s t : State) : Prop where
  run : t.run = .halted
  cause : t.haltCause = c
  same : SameExcept { halt := true } s t

/-- The registers `V[0]` to `V[x]`. -/
def regsBelow (x : Reg) : List Reg := (List.finRange 16).filter fun r => r.val ≤ x.val

/-- The addresses of `n` bytes from `I` up. -/
def dataAddresses (s : State) (n : Nat) : List Nat := (List.range n).map s.dataAddress

/-- The "w" entries of the access matrix (10_state R37), the flag in column VF counted as register 15: what the execute step of an
instruction that raises no fatal condition may change. -/
def touches (s : State) : Instr → Touched
  | .cls => { fb := true, redraw := true }
  | .ret => { pc := true, sp := true }
  | .jp _ => { pc := true }
  | .call _ => { pc := true, stack := [s.sp.val], sp := true }
  | .seVxNn _ _ | .sneVxNn _ _ | .seVxVy _ _ | .sneVxVy _ _ | .skp _ | .sknp _ => { pc := true }
  | .ldVxNn x _ | .addVxNn x _ | .ldVxVy x _ | .orVxVy x _ | .andVxVy x _ | .xorVxVy x _ | .rndVxNn x _ | .ldVxDt x =>
    { regs := [x] }
  | .addVxVy x _ | .subVxVy x _ | .shrVxVy x _ | .subnVxVy x _ | .shlVxVy x _ => { regs := [x, vf] }
  | .ldINnn _ | .ldFVx _ => { index := true }
  | .drw _ _ _ => { regs := [vf], fb := true, redraw := true }
  | .ldVxK x => if s.keys = 0 then { pc := true } else { regs := [x] }
  | .ldDtVx _ => { dt := true }
  | .ldStVx _ => { st := true }
  | .addIVx x => { regs := if s.index.toNat + (s.reg x).toNat > 0xFFF then [vf] else [], index := true }
  | .ldBVx _ => { mem := dataAddresses s 3 }
  | .ldMemVx x => { mem := dataAddresses s (x.val + 1) }
  | .ldVxMem x => { regs := regsBelow x }
  | .undef _ => {}

/-- The one fatal condition an instruction can raise, if any (60_exceptions R200, R210). -/
def causeOf : Instr → Option HaltCause
  | .call _ => some .stackOverflow
  | .ret => some .stackUnderflow
  | .drw _ _ _ | .ldBVx _ | .ldMemVx _ | .ldVxMem _ => some .memRange
  | .skp _ | .sknp _ => some .keyRange
  | .cls | .jp _ | .seVxNn _ _ | .sneVxNn _ _ | .seVxVy _ _ | .sneVxVy _ _ | .ldVxNn _ _ | .addVxNn _ _ | .ldVxVy _ _
  | .orVxVy _ _ | .andVxVy _ _ | .xorVxVy _ _ | .addVxVy _ _ | .subVxVy _ _ | .shrVxVy _ _ | .subnVxVy _ _ | .shlVxVy _ _
  | .ldINnn _ | .rndVxNn _ _ | .ldVxDt _ | .ldVxK _ | .ldDtVx _ | .ldStVx _ | .addIVx _ | .ldFVx _ | .undef _ => none

/-- The instruction reads the sampled keys (10_state R31). -/
def readsKeys : Instr → Bool
  | .skp _ | .sknp _ | .ldVxK _ => true
  | _ => false

/-- The instruction reads the sampled random byte (10_state R31). -/
def readsRnd : Instr → Bool
  | .rndVxNn _ _ => true
  | _ => false

/-- The byte of main memory at an address of 0x000 to 0xFFF. -/
def State.byteAt (s : State) (a : Nat) : Byte := (s.mem.read? a).getD 0

/-- The sprite of `n` rows at `I`, drawn with its origin at `(ox, oy)`, has a set bit over `(px, py)`: row `r` is the byte at `I + r`,
bit 7 the leftmost (43_display R161, R162). Inside the frame this is the set of pixels a draw inverts; a bit beyond the frame's
edge is over no pixel of it (R163). -/
def State.spriteOver (s : State) (ox oy n px py : Nat) : Bool :=
  decide (ox ≤ px ∧ px < ox + 8 ∧ oy ≤ py ∧ py < oy + n) && (s.byteAt (s.index.toNat + (py - oy))).getLsbD (7 - (px - ox))

/-- The instruction a Cycle of this state runs, with the inputs on the ports: none when it halts before the execute step or the core
is Halted already (40_cycle_control_flow R100). -/
def State.running? (s : State) : Option Instr :=
  if s.run = .running ∧ s.stopReq = false ∧ s.pc ≠ 0xFFF#12 then s.fetch?.map decodeWord else none

/-- The instruction the next step runs, if the host's next operation is a Cycle that runs one. -/
def State.stepRuns? (s : State) : Option Instr :=
  match nextOp s with
  | (.cycle inputs, s') => (s'.sample inputs).running?
  | _ => none

/-- The next step is FrameAck. -/
def State.nextIsFrameAck (s : State) : Bool :=
  match nextOp s with
  | (.frameAck, _) => true
  | _ => false

/-- The next step is Reset. -/
def State.nextIsReset (s : State) : Bool :=
  match nextOp s with
  | (.reset _, _) => true
  | _ => false

/-- Apply a function to the state a result holds. -/
def mapNext (f : State → State) : Result → Result
  | .next s => .next (f s)
  | .fault r => .fault r
  | .refused r => .refused r

/-- The state with what no instruction reads put to fixed values: the sound timer and the redraw flag (10_state R28, R29). -/
def State.hideOutputs (s : State) : State := { s with st := 0, redraw := false }

end Sys2Proof.Machine
end

