-- ==== Sys2Proof/Certificates/Slice0/Obligations.lean ====
section
/-! DEFINITION. The statements for the provers. Each says which rule of spec/ it formalises; a value that is the spec's own decision
(92_eei_decisions) or the model's own choice is named with its decision or log entry. -/

open Sys2Proof Sys2Proof.Machine

/-! Encoding -/

/-- R71: the fields are slices of the word, and they overlap as said. -/
def Obligations.FieldsOfWord : Prop :=
  ∀ w : Word,
    (fieldOp w).toNat = w.toNat / 4096 ∧ (fieldX w).val = w.toNat / 256 % 16 ∧ (fieldY w).val = w.toNat / 16 % 16 ∧
      (fieldN w).val = w.toNat % 16 ∧ (fieldNN w).toNat = w.toNat % 256 ∧ (fieldNNN w).toNat = w.toNat % 4096 ∧
      fieldNN w = nibble (fieldY w) ++ nibble (fieldN w) ∧
      fieldNNN w = nibble (fieldX w) ++ nibble (fieldY w) ++ nibble (fieldN w)

/-- Words written out from the table of R75, one or two a family, and `B300`, which is in no row of it and undefined (R77, decision D2,
log entry 6). The sub-opcode 4 of family 8 is derived, 6 and E are PRESUMED (R121, decision D3, log entry 5). -/
def Obligations.WordsDecodeAsWritten : Prop :=
  decodeWord 0x00E0 = .cls ∧ decodeWord 0x00EE = .ret ∧ decodeWord 0x1ABC = .jp 0xABC ∧ decodeWord 0x3A42 = .seVxNn 10 0x42 ∧
    decodeWord 0x5120 = .seVxVy 1 2 ∧ decodeWord 0x7320 = .addVxNn 3 0x20 ∧ decodeWord 0x8AB4 = .addVxVy 10 11 ∧
    decodeWord 0x8126 = .shrVxVy 1 2 ∧ decodeWord 0x812E = .shlVxVy 1 2 ∧ decodeWord 0xA050 = .ldINnn 0x050 ∧
    decodeWord 0xD125 = .drw 1 2 5 ∧ decodeWord 0xE3A1 = .sknp 3 ∧ decodeWord 0xF565 = .ldVxMem 5 ∧
    decodeWord 0xB300 = .undef 0xB300

/-- R72, R74, R75: decoding the word, or the bytes, of any well-formed instruction gives it back, every operand at every value.
The patterns match exactly (decision D1, log entry 6); family 8 is PRESUMED for 6, 7 and E (decision D3, log entry 5). -/
def Obligations.DecodeOfEncode : Prop :=
  ∀ i : Instr, i.wellFormed = true →
    decodeWord (encode i) = i ∧ ∀ rest, decodeBytes (encodeBytes i ++ rest) = .ok (i, rest)

/-- R79: every word decodes to a well-formed instruction, and no two words to one (decisions D1, D3, log entries 5, 6). -/
def Obligations.EncodeOfDecode : Prop :=
  ∀ w : Word, (decodeWord w).wellFormed = true ∧ encode (decodeWord w) = w

/-- R74, R75: the decoding procedure picks exactly the row whose mask and match fit the word; so no two rows overlap (decision D1,
log entry 6). The match of the family 8 rows is PRESUMED for 6, 7 and E (R121, decision D3, log entry 5). -/
def Obligations.DecoderAgreesWithTable : Prop :=
  opcodeTable.length = 33 ∧
    ∀ (w : Word) (k : Nat) (r : OpcodeRow), opcodeTable[k]? = some r →
      (r.selects w = true ↔ (decodeWord w).row = some (k + 1))

/-- R77: the undefined space is exactly these seven sets (decisions D1, D2, D4, log entry 6). -/
def Obligations.UndefinedSpace : Prop :=
  ∀ w : Word,
    decodeWord w = .undef w ↔
      (((fieldOp w).toNat = 0x0 ∧ w ≠ 0x00E0#16 ∧ w ≠ 0x00EE#16) ∨ ((fieldOp w).toNat = 0x5 ∧ (fieldN w).val ≠ 0) ∨
        ((fieldOp w).toNat = 0x8 ∧ (fieldN w).val ∈ [0x8, 0x9, 0xA, 0xB, 0xC, 0xD, 0xF]) ∨
        ((fieldOp w).toNat = 0x9 ∧ (fieldN w).val ≠ 0) ∨ (fieldOp w).toNat = 0xB ∨
        ((fieldOp w).toNat = 0xE ∧ (fieldNN w).toNat ∉ [0x9E, 0xA1]) ∨
        ((fieldOp w).toNat = 0xF ∧ (fieldNN w).toNat ∉ [0x07, 0x0A, 0x15, 0x18, 0x1E, 0x29, 0x33, 0x55, 0x65]))

/-- R70, R53: an instruction is two bytes, the first one the high byte; fewer bytes are no instruction. -/
def Obligations.BytesAreBigEndian : Prop :=
  (∀ (hi lo : Byte) (rest : List Byte),
    ∃ w : Word, w.toNat = hi.toNat * 256 + lo.toNat ∧ decodeBytes (hi :: lo :: rest) = .ok (decodeWord w, rest)) ∧
    decodeBytes [] = .error .truncated ∧ ∀ b : Byte, decodeBytes [b] = .error .truncated

/-! Memory -/

/-- R52, R55: a write inside memory is read back, leaves every other place alone and keeps the canonical form; outside there is
nothing to read or write. The canonical form is the model's (log entry 28). -/
def Obligations.ReadAfterWrite : Prop :=
  (∀ (m : Memory) (a : Nat) (x : Byte), m.wf = true → a < 4096 →
    ∃ m', m.write? a x = some m' ∧ m'.wf = true ∧ m'.read? a = some x ∧ ∀ b, b ≠ a → m'.read? b = m.read? b) ∧
    ∀ (m : Memory) (a : Nat) (x : Byte), 4096 ≤ a → m.read? a = none ∧ m.write? a x = none

/-- The model's canonical form (log entry 28): memories in it that read alike are the same data. -/
def Obligations.EqualReadsEqualMemory : Prop :=
  ∀ m m' : Memory, m.wf = true → m'.wf = true → (∀ a, m.read? a = m'.read? a) → m = m'

/-- R60, R63, R53: bytes that Fx55 stores where `pc` points are the next word fetched. The memory is in canonical form (the
model's, log entry 28); the range check of R144 is decision D11 (log entry 12). The fetch may be at an odd `pc` (decision D9, log
entry 11). -/
def Obligations.FetchSeesStore : Prop :=
  ∀ (x : Reg) (s : State) (k : Fin 15), s.mem.wf = true → s.index.toNat + x.val ≤ 0xFFF → k.val < x.val →
    s.pc.toNat = s.index.toNat + k.val →
    ∃ t w, exec (.ldMemVx x) s = .next t ∧ t.fetch? = some w ∧
      w.toNat = (s.reg k.castSucc).toNat * 256 + (s.reg k.succ).toNat

/-! Reset -/

/-- R35, R238: what Reset with an empty image leaves. `pc` is decision D23, the zero memory and stack entries are decision D33 (log
entry 24), `run` and `haltCause` are decision D16 (log entry 17), the font bytes are PRESUMED (R36, decision D21, log entry 4), the
ports and the schedule are the model's choice (log entries 1, 2, 3). -/
def Obligations.ResetState : Prop :=
  (∀ r, State.reset.reg r = 0) ∧ State.reset.pc = 0x200 ∧ State.reset.index = 0 ∧ State.reset.sp = 0 ∧
    (∀ k : Fin 16, State.reset.stack[k] = 0) ∧ (∀ px py, State.reset.pixel px py = false) ∧ State.reset.dt = 0 ∧
    State.reset.st = 0 ∧ State.reset.redraw = false ∧ State.reset.run = .running ∧ State.reset.haltCause = .none ∧
    State.reset.keys = 0 ∧ State.reset.stopReq = false ∧ State.reset.schedule = [] ∧
    (∀ a, a < 0x050 ∨ 0x0A0 ≤ a → State.reset.byteAt a = 0) ∧
    ∀ k, k < 80 → font[k]? = some (State.reset.byteAt (0x050 + k))

/-- R230, R231: Reset with an image rebuilds the whole core from any state, Halted too (that a later Reset does the same is derived
in R230); a longer image is refused (decision D36, log entry 25). `pc` is decision D23, zero memory outside font and image and zero
stack entries are decision D33 (log entry 24), `run` and `haltCause` are decision D16 (log entry 17). The ports, the draw counter
and the rest of the schedule are the host's or the model's and stay (log entries 1, 2, 3); the canonical form is the model's (log
entry 28). -/
def Obligations.ResetLoadsImage : Prop :=
  ∀ (s : State) (image : List Byte) (rest : List HostOp), s.schedule = .reset image :: rest →
    if image.length ≤ 3584 then
      ∃ t, step s = .next t ∧ (∀ r, t.reg r = 0) ∧ t.pc = 0x200 ∧ t.index = 0 ∧ t.sp = 0 ∧ (∀ k : Fin 16, t.stack[k] = 0) ∧
        (∀ px py, t.pixel px py = false) ∧ t.dt = 0 ∧ t.st = 0 ∧ t.redraw = false ∧ t.run = .running ∧ t.haltCause = .none ∧
        (∀ k (hk : k < image.length), t.byteAt (0x200 + k) = image[k]) ∧
        (∀ a, a < 0x200 ∨ 0x200 + image.length ≤ a → t.byteAt a = State.reset.byteAt a) ∧
        t.mem.wf = true ∧ t.keys = s.keys ∧ t.stopReq = s.stopReq ∧ t.rnd = s.rnd ∧ t.schedule = rest ∧ t.draws = s.draws
    else step s = .refused .imageTooLong

/-! Steps -/

/-- R100 (steps 4 to 7), R63: a Cycle that is not stopped runs the instruction its two bytes decode to, with `pc` past it and the
ports holding the inputs it sampled; `pc` + 2 is modulo 4096 (decision D8, log entry 10). With an empty schedule the Cycle's inputs
are the model's (log entries 1, 3). `pc` may be odd (decision D9, log entry 11); the inputs are sampled once, at the start
(decision D32, log entry 26). -/
def Obligations.StepRunsDecodedInstruction : Prop :=
  (∀ (s : State) (inputs : Inputs) (rest : List HostOp), s.schedule = .cycle inputs :: rest → inputs.stopReq = false →
    s.run = .running → s.pc ≠ 0xFFF →
    step s = exec (decodeWord (wordOfBytes (s.byteAt s.pc.toNat) (s.byteAt (s.pc.toNat + 1))))
      { s with schedule := rest, keys := inputs.keys, stopReq := false, rnd := inputs.rnd, pc := s.pc + 2 }) ∧
  ∀ s : State, s.schedule = [] → s.stopReq = false → s.run = .running → s.pc ≠ 0xFFF →
    step s = exec (decodeWord (wordOfBytes (s.byteAt s.pc.toNat) (s.byteAt (s.pc.toNat + 1))))
      { s with rnd := Config.freeRnd s.draws, draws := s.draws + 1, pc := s.pc + 2 }

/-- R170, R165: Tick lowers each timer that is not 0 by exactly 1; FrameAck clears `redraw`; nothing else changes, in Halted as in
Running (decision D18, log entry 18). -/
def Obligations.TickAndFrameAck : Prop :=
  (∀ (s : State) (rest : List HostOp), s.schedule = .tick :: rest →
    ∃ t, step s = .next t ∧ t.dt.toNat = s.dt.toNat - 1 ∧ t.st.toNat = s.st.toNat - 1 ∧
      SameExcept { dt := true, st := true } { s with schedule := rest } t) ∧
  ∀ (s : State) (rest : List HostOp), s.schedule = .frameAck :: rest →
    ∃ t, step s = .next t ∧ t.redraw = false ∧ SameExcept { redraw := true } { s with schedule := rest } t

/-- R206, R210: a Cycle that sees the stop request halts before the fetch, whatever `pc` is (decisions D15, D35, log entry 16). The
status is decision D31 (R212, log entry 26), `run` and the cause are decision D16 (R209, log entry 17). -/
def Obligations.StopRequestHalts : Prop :=
  ∀ (s : State) (inputs : Inputs) (rest : List HostOp), s.schedule = .cycle inputs :: rest → inputs.stopReq = true →
    s.run = .running →
    ∃ t, step s = .next t ∧ t.status = .stopClean ∧
      HaltedBy .stopRequest { s with schedule := rest, keys := inputs.keys, stopReq := true, rnd := inputs.rnd } t

/-- R203, R209: a Cycle at `pc` = 0xFFF halts with FetchRange, `pc` not advanced (decision D10, log entry 12). The status is decision
D31 (R212, log entry 26), the cause and its code 4 are decision D16 (R200, log entry 17). -/
def Obligations.FetchAtTopHalts : Prop :=
  ∀ (s : State) (inputs : Inputs) (rest : List HostOp), s.schedule = .cycle inputs :: rest → inputs.stopReq = false →
    s.run = .running → s.pc = 0xFFF →
    ∃ t, step s = .next t ∧ t.status = .fatal 4 ∧
      HaltedBy .fetchRange { s with schedule := rest, keys := inputs.keys, stopReq := false, rnd := inputs.rnd } t

/-- R211: a Cycle in Halted changes no state of the core and returns the latched status (decision D17, log entry 16; the status is
decision D31, log entry 26). -/
def Obligations.HaltedCycleChangesNothing : Prop :=
  ∀ (s : State) (inputs : Inputs) (rest : List HostOp), s.schedule = .cycle inputs :: rest → s.run = .halted →
    ∃ t, step s = .next t ∧ t.status = s.status ∧
      t = { s with schedule := rest, keys := inputs.keys, stopReq := inputs.stopReq, rnd := inputs.rnd }

/-- R211: "Only Reset leaves Halted"; until then the cause stays too (decisions D16, D17, D18, log entries 16, 17, 18). -/
def Obligations.OnlyResetLeavesHalted : Prop :=
  ∀ s t : State, step s = .next t → s.run = .halted → s.nextIsReset = false → t.run = .halted ∧ t.haltCause = s.haltCause

/-- R200, R30: the code of every cause (decision D16, log entry 17). R212: the status a Cycle returns, from the state it leaves
(decision D31, log entry 26). -/
def Obligations.StatusReportsHaltCause : Prop :=
  (HaltCause.code .none = 0 ∧ HaltCause.code .stopRequest = 1 ∧ HaltCause.code .stackOverflow = 2 ∧
    HaltCause.code .stackUnderflow = 3 ∧ HaltCause.code .fetchRange = 4 ∧ HaltCause.code .memRange = 5 ∧
    HaltCause.code .keyRange = 6) ∧
  ∀ s : State, Inv s →
    (s.status = .continue_ ↔ s.run = .running) ∧ (s.status = .stopClean ↔ s.haltCause = .stopRequest) ∧
      ∀ c, s.status = .fatal c ↔ (s.haltCause.code = c ∧ 2 ≤ c.toNat)

/-- R220: the diagnostic event appears exactly when a Cycle runs an undefined word, and carries it and its address (decision D26, log
entry 21). -/
def Obligations.DiagReportsUndefined : Prop :=
  ∀ (s : State) (w : Word) (a : Addr),
    s.diag = some (w, a) ↔ (s.running? = some (.undef w) ∧ s.pc = a)

/-! Invariants -/

/-- R33, R35: the invariant holds after Reset: memory in canonical form (the model's, log entry 28), `haltCause` None and Running (R30,
decision D16, log entry 17). -/
def Obligations.InvHoldsAtReset : Prop := Inv State.reset

/-- R33: every step of every state keeps the invariant: memory in canonical form (the model's, log entry 28), `haltCause` None exactly
when Running (R30, decision D16, log entry 17). -/
def Obligations.StepKeepsInv : Prop := ∀ s t : State, Inv s → step s = .next t → Inv t

/-- R33 item 6: no access outside 0x000 to 0xFFF is ever performed; the memory primitives fault on one, and no step of any state
faults. What happens in place of the access is decisions D10 and D11 (log entry 12). -/
def Obligations.StepNeverFaults : Prop := ∀ (s : State) (f : Fault), step s ≠ .fault f

/-- R231: the only refusal there is: Reset with an image longer than the program space; so every instruction runs. -/
def Obligations.OnlyLongImagesRefused : Prop :=
  ∀ (s : State) (r : Refusal), step s = .refused r →
    r = .imageTooLong ∧ ∃ image rest, s.schedule = .reset image :: rest ∧ 3584 < image.length

/-! Rules of the whole machine -/

/-- R37, R210: every instruction changes what the access matrix says and nothing else, or halts with its one cause and changes nothing
but `run` and `haltCause` (decisions D16, D24, log entries 17, 19). -/
def Obligations.AccessMatrix : Prop :=
  ∀ (i : Instr) (s t : State), exec i s = .next t →
    SameExcept (touches s i) s t ∨ ∃ c, causeOf i = some c ∧ HaltedBy c s t

/-- R178: DT rises only by Fx15 and ST only by Fx18. -/
def Obligations.TimersRiseOnlyByWrite : Prop :=
  ∀ s t : State, step s = .next t →
    (s.dt.toNat < t.dt.toNat → ∃ x, s.stepRuns? = some (.ldDtVx x)) ∧
      (s.st.toNat < t.st.toNat → ∃ x, s.stepRuns? = some (.ldStVx x))

/-- R26: 4096 bytes, addresses 0 to 4095; written by Reset, Fx33 and Fx55 only. -/
def Obligations.MemoryWrittenOnlyBy : Prop :=
  (∀ (s : State) (a : Nat), (s.mem.read? a).isSome = true ↔ a ≤ 4095) ∧
    ∀ (s t : State) (a : Nat), step s = .next t → t.mem.read? a ≠ s.mem.read? a →
      s.nextIsReset = true ∨ (∃ x, s.stepRuns? = some (.ldBVx x)) ∨ ∃ x, s.stepRuns? = some (.ldMemVx x)

/-- R27: the framebuffer is written by 00E0 and Dxyn only (and Reset). -/
def Obligations.FrameBufferWrittenOnlyBy : Prop :=
  ∀ s t : State, step s = .next t → t.fb ≠ s.fb →
    s.nextIsReset = true ∨ s.stepRuns? = some .cls ∨ ∃ x y n, s.stepRuns? = some (.drw x y n)

/-- R29, R165: `redraw` is set by every 00E0 and every Dxyn that does not fault and by nothing else (decision D28, log entry 22), and
cleared by FrameAck and Reset only. -/
def Obligations.RedrawFlagRule : Prop :=
  ∀ s t : State, step s = .next t →
    (s.stepRuns? = some .cls → t.redraw = true) ∧
    (∀ x y n, s.stepRuns? = some (.drw x y n) → t.run = .running → t.redraw = true) ∧
    (s.redraw = false → t.redraw = true → s.stepRuns? = some .cls ∨ ∃ x y n, s.stepRuns? = some (.drw x y n)) ∧
    (s.redraw = true → t.redraw = false → s.nextIsFrameAck = true ∨ s.nextIsReset = true)

/-- R28, R29, R165: no instruction reads ST or `redraw`: two states that differ in these only step to states that differ in these
only, so a program never learns when the host acknowledges a frame. -/
def Obligations.OutputsAreNotRead : Prop :=
  ∀ s s' : State, s.hideOutputs = s'.hideOutputs →
    mapNext State.hideOutputs (step s) = mapNext State.hideOutputs (step s')

/-- R31: only Cxnn looks at `rnd`, only Ex9E, ExA1 and Fx0A look at `keys`. -/
def Obligations.InputsIgnored : Prop :=
  ∀ (i : Instr) (s : State),
    (readsRnd i = false → ∀ b, exec i { s with rnd := b } = mapNext (fun t => { t with rnd := b }) (exec i s)) ∧
      (readsKeys i = false → ∀ k, exec i { s with keys := k } = mapNext (fun t => { t with keys := k }) (exec i s))

/-! Control flow. Where an execute step starts, `pc` is already past the instruction. -/

/-- R102: a word with top nibble 1 is a jump; it puts its 12 bits in `pc` and changes nothing else. -/
def Obligations.JumpGoesToTarget : Prop :=
  (∀ w : Word, fieldOp w = 0x1 → decodeWord w = .jp (fieldNNN w)) ∧
    ∀ (nnn : Addr) (s : State), ∃ t, exec (.jp nnn) s = .next t ∧ t.pc = nnn ∧ SameExcept { pc := true } s t

/-- R237, R102: a jump to itself is a fixed point of Cycle: but for the host's ports and schedule nothing changes. `pc` may be odd
(decision D9, log entry 11); the ports are the model's fields (decision D32, log entries 1, 2, 26). -/
def Obligations.JumpToSelfIsFixedPoint : Prop :=
  ∀ (s : State) (inputs : Inputs) (rest : List HostOp), s.schedule = .cycle inputs :: rest → inputs.stopReq = false →
    s.run = .running → s.pc ≠ 0xFFF →
    wordOfBytes (s.byteAt s.pc.toNat) (s.byteAt (s.pc.toNat + 1)) = encode (.jp s.pc) →
    step s = .next { s with schedule := rest, keys := inputs.keys, stopReq := false, rnd := inputs.rnd }

/-- R103, R201: a call pushes `pc`, which is past the call, and jumps; on a full stack it halts with StackOverflow (decision D12,
log entry 13). `run` and the cause of the halt are decision D16 (R209, log entry 17). -/
def Obligations.CallPushesReturnAddress : Prop :=
  ∀ (nnn : Addr) (s : State),
    (s.sp.val < 16 → ∃ t, exec (.call nnn) s = .next t ∧ t.pc = nnn ∧ t.sp.val = s.sp.val + 1 ∧
      (∀ k : Fin 16, k.val = s.sp.val → t.stack[k] = s.pc) ∧
      SameExcept { pc := true, stack := [s.sp.val], sp := true } s t) ∧
    (s.sp.val = 16 → ∃ t, exec (.call nnn) s = .next t ∧ HaltedBy .stackOverflow s t)

/-- R101, R202: a return pops `pc` and does not erase the entry (decision D30, log entry 24); on an empty stack it halts with
StackUnderflow (decision D12, log entry 13). `run` and the cause of the halt are decision D16 (R209, log entry 17). -/
def Obligations.ReturnPopsAddress : Prop :=
  ∀ s : State,
    (0 < s.sp.val → ∃ t, exec .ret s = .next t ∧ t.sp.val = s.sp.val - 1 ∧
      (∀ k : Fin 16, k.val = s.sp.val - 1 → t.pc = s.stack[k]) ∧ SameExcept { pc := true, sp := true } s t) ∧
    (s.sp.val = 0 → ∃ t, exec .ret s = .next t ∧ HaltedBy .stackUnderflow s t)

/-- R101, R103: from whatever `pc` the return runs at, it leads back to the instruction after the call, with the stack as deep as
before. -/
def Obligations.ReturnUndoesCall : Prop :=
  ∀ (nnn a : Addr) (s : State), s.sp.val < 16 →
    ∃ t u, exec (.call nnn) s = .next t ∧ exec .ret { t with pc := a } = .next u ∧ u.pc = s.pc ∧ u.sp = s.sp ∧
      SameExcept { stack := [s.sp.val] } s u

/-- R104, R105, R109: the immediate skips. `pc` moves modulo 4096 (decision D8, log entry 10). -/
def Obligations.SkipsOnImmediate : Prop :=
  ∀ (x : Reg) (nn : Byte) (s : State),
    (∃ t, exec (.seVxNn x nn) s = .next t ∧
      t.pc.toNat = (if s.reg x = nn then (s.pc.toNat + 2) % 4096 else s.pc.toNat) ∧ SameExcept { pc := true } s t) ∧
    ∃ t, exec (.sneVxNn x nn) s = .next t ∧
      t.pc.toNat = (if s.reg x = nn then s.pc.toNat else (s.pc.toNat + 2) % 4096) ∧ SameExcept { pc := true } s t

/-- R106, R107, R109: the register skips. `pc` moves modulo 4096 (decision D8, log entry 10). -/
def Obligations.SkipsOnRegister : Prop :=
  ∀ (x y : Reg) (s : State),
    (∃ t, exec (.seVxVy x y) s = .next t ∧
      t.pc.toNat = (if s.reg x = s.reg y then (s.pc.toNat + 2) % 4096 else s.pc.toNat) ∧ SameExcept { pc := true } s t) ∧
    ∃ t, exec (.sneVxVy x y) s = .next t ∧
      t.pc.toNat = (if s.reg x = s.reg y then s.pc.toNat else (s.pc.toNat + 2) % 4096) ∧ SameExcept { pc := true } s t

/-- R76, R207: a word that no row of the table matches is an undefined opcode, and that changes nothing; `pc` stays past it (decisions
D1, D2, D4, log entry 6). -/
def Obligations.UndefinedIsNoOp : Prop :=
  (∀ w : Word, definedWord w = false → decodeWord w = .undef w) ∧ ∀ (w : Word) (s : State), exec (.undef w) s = .next s

/-! Arithmetic -/

/-- R122: a word with top nibble 6 loads its low byte into `V[x]`, `VF` being a register like the others; nothing else changes. -/
def Obligations.LoadImmediate : Prop :=
  (∀ w : Word, fieldOp w = 0x6 → decodeWord w = .ldVxNn (fieldX w) (fieldNN w)) ∧
    ∀ (x : Reg) (nn : Byte) (s : State), ∃ t, exec (.ldVxNn x nn) s = .next t ∧ t.reg x = nn ∧ SameExcept { regs := [x] } s t

/-- R123: the sum wraps, and no flag is written unless `VF` is the destination (decision D24, log entry 19). -/
def Obligations.AddImmediate : Prop :=
  ∀ (x : Reg) (nn : Byte) (s : State), ∃ t, exec (.addVxNn x nn) s = .next t ∧
    (t.reg x).toNat = ((s.reg x).toNat + nn.toNat) % 256 ∧ SameExcept { regs := [x] } s t

/-- R124: a word with top nibble 8 and low nibble 0 copies `V[y]` to `V[x]`; nothing else changes. That the low nibble 0 is the copy is
derived from the order of a list (R121, log entry 5). -/
def Obligations.CopyRegister : Prop :=
  (∀ w : Word, fieldOp w = 0x8 → fieldN w = 0 → decodeWord w = .ldVxVy (fieldX w) (fieldY w)) ∧
    ∀ (x y : Reg) (s : State), ∃ t, exec (.ldVxVy x y) s = .next t ∧ t.reg x = s.reg y ∧ SameExcept { regs := [x] } s t

/-- R125, R126, R127: or, and, exclusive or, bit by bit; `VF` is not reset (decision D24, log entry 19). That the low nibbles 1, 2 and 3
are these three is derived from the order of a list (R121, log entry 5). -/
def Obligations.LogicRegisters : Prop :=
  (∀ w : Word, fieldOp w = 0x8 → (fieldN w = 1 → decodeWord w = .orVxVy (fieldX w) (fieldY w)) ∧
    (fieldN w = 2 → decodeWord w = .andVxVy (fieldX w) (fieldY w)) ∧
    (fieldN w = 3 → decodeWord w = .xorVxVy (fieldX w) (fieldY w))) ∧
  ∀ (x y : Reg) (s : State),
    (∃ t, exec (.orVxVy x y) s = .next t ∧
      (∀ b, (t.reg x).getLsbD b = ((s.reg x).getLsbD b || (s.reg y).getLsbD b)) ∧ SameExcept { regs := [x] } s t) ∧
    (∃ t, exec (.andVxVy x y) s = .next t ∧
      (∀ b, (t.reg x).getLsbD b = ((s.reg x).getLsbD b && (s.reg y).getLsbD b)) ∧ SameExcept { regs := [x] } s t) ∧
    ∃ t, exec (.xorVxVy x y) s = .next t ∧
      (∀ b, (t.reg x).getLsbD b = ((s.reg x).getLsbD b ^^ (s.reg y).getLsbD b)) ∧ SameExcept { regs := [x] } s t

/-- R128, R120: a word with top nibble 8 and low nibble 4 adds: the sum and its carry, both operands read first, the flag written last:
with `x` = 15 `VF` holds the flag (decision D5, log entry 7). The low nibble is derived (R121, log entry 5). -/
def Obligations.AddWithCarryOut : Prop :=
  (∀ w : Word, fieldOp w = 0x8 → fieldN w = 4 → decodeWord w = .addVxVy (fieldX w) (fieldY w)) ∧
  ∀ (x y : Reg) (s : State), ∃ t, exec (.addVxVy x y) s = .next t ∧
    (x ≠ 15 → (t.reg x).toNat = ((s.reg x).toNat + (s.reg y).toNat) % 256) ∧
    (t.reg 15).toNat = (if (s.reg x).toNat + (s.reg y).toNat > 255 then 1 else 0) ∧ SameExcept { regs := [x, 15] } s t

/-- R129, R131, R120: both subtractions; the flag says "no borrow" and is written last (decision D5, log entry 7). The low nibble 5 is
derived, 7 is PRESUMED (R121, decision D3, log entry 5). -/
def Obligations.SubtractNoBorrow : Prop :=
  (∀ w : Word, fieldOp w = 0x8 → (fieldN w = 5 → decodeWord w = .subVxVy (fieldX w) (fieldY w)) ∧
    (fieldN w = 7 → decodeWord w = .subnVxVy (fieldX w) (fieldY w))) ∧
  ∀ (x y : Reg) (s : State),
    (∃ t, exec (.subVxVy x y) s = .next t ∧
      (x ≠ 15 → (t.reg x).toNat = ((s.reg x).toNat + 256 - (s.reg y).toNat) % 256) ∧
      (t.reg 15).toNat = (if (s.reg x).toNat ≥ (s.reg y).toNat then 1 else 0) ∧ SameExcept { regs := [x, 15] } s t) ∧
    ∃ t, exec (.subnVxVy x y) s = .next t ∧
      (x ≠ 15 → (t.reg x).toNat = ((s.reg y).toNat + 256 - (s.reg x).toNat) % 256) ∧
      (t.reg 15).toNat = (if (s.reg y).toNat ≥ (s.reg x).toNat then 1 else 0) ∧ SameExcept { regs := [x, 15] } s t

/-- R130, R132, R120: both shifts take `V[y]`; the flag is the evicted bit and is written last (decision D5, log entry 7). The low
nibbles 6 and E are PRESUMED (R121, decision D3, log entry 5). -/
def Obligations.ShiftsOfVy : Prop :=
  (∀ w : Word, fieldOp w = 0x8 → (fieldN w = 6 → decodeWord w = .shrVxVy (fieldX w) (fieldY w)) ∧
    (fieldN w = 0xE → decodeWord w = .shlVxVy (fieldX w) (fieldY w))) ∧
  ∀ (x y : Reg) (s : State),
    (∃ t, exec (.shrVxVy x y) s = .next t ∧ (x ≠ 15 → (t.reg x).toNat = (s.reg y).toNat / 2) ∧
      (t.reg 15).toNat = (s.reg y).toNat % 2 ∧ SameExcept { regs := [x, 15] } s t) ∧
    ∃ t, exec (.shlVxVy x y) s = .next t ∧ (x ≠ 15 → (t.reg x).toNat = 2 * (s.reg y).toNat % 256) ∧
      (t.reg 15).toNat = (s.reg y).toNat / 128 ∧ SameExcept { regs := [x, 15] } s t

/-- R133: the random byte the Cycle sampled, masked; it holds for every byte (decision D20, log entry 3). -/
def Obligations.RandomMasked : Prop :=
  ∀ (x : Reg) (nn : Byte) (s : State), ∃ t, exec (.rndVxNn x nn) s = .next t ∧
    (∀ b, (t.reg x).getLsbD b = (s.rnd.getLsbD b && nn.getLsbD b)) ∧ SameExcept { regs := [x] } s t

/-! Index register and memory -/

/-- R140: a word with top nibble A puts its 12 bits in `I`, bits 15 to 12 becoming 0; nothing else changes. -/
def Obligations.LoadIndex : Prop :=
  (∀ w : Word, fieldOp w = 0xA → decodeWord w = .ldINnn (fieldNNN w)) ∧
    ∀ (nnn : Addr) (s : State), ∃ t, exec (.ldINnn nnn) s = .next t ∧ t.index.toNat = nnn.toNat ∧
      SameExcept { index := true } s t

/-- R141: the sum, 16 bits wide (decision D6, log entry 8); `VF` is set when the unreduced sum exceeds 0xFFF and is otherwise not
written (decision D7, log entry 9), the old `V[x]` being the addend also for `x` = 15 (decision D5, log entry 7). -/
def Obligations.AddToIndex : Prop :=
  ∀ (x : Reg) (s : State), ∃ t, exec (.addIVx x) s = .next t ∧
    t.index.toNat = (s.index.toNat + (s.reg x).toNat) % 65536 ∧
    (if s.index.toNat + (s.reg x).toNat > 0xFFF then t.reg 15 = 1 ∧ SameExcept { regs := [15], index := true } s t
      else SameExcept { index := true } s t)

/-- R142: the glyph address of the whole byte, and nothing else changes. -/
def Obligations.GlyphAddress : Prop :=
  (∀ w : Word, fieldOp w = 0xF → fieldNN w = 0x29 → decodeWord w = .ldFVx (fieldX w)) ∧
    ∀ (x : Reg) (s : State), ∃ t, exec (.ldFVx x) s = .next t ∧ t.index.toNat = 0x050 + 5 * (s.reg x).toNat ∧
      SameExcept { index := true } s t

/-- R143, R204: the three digits, most significant first; MemRange when `I + 2` is above 0xFFF, and then nothing is written
(decision D11, log entry 12). `I` is not changed (decision D24, log entry 19). `run` and the cause of the halt are decision D16
(R209, log entry 17). The canonical form is the model's (log entry 28). -/
def Obligations.StoreDecimal : Prop :=
  ∀ (x : Reg) (s : State),
    (s.index.toNat + 2 ≤ 0xFFF → ∃ t, exec (.ldBVx x) s = .next t ∧ SameExcept { mem := dataAddresses s 3 } s t ∧
      (s.mem.wf = true → (t.byteAt s.index.toNat).toNat = (s.reg x).toNat / 100 ∧
        (t.byteAt (s.index.toNat + 1)).toNat = (s.reg x).toNat / 10 % 10 ∧
        (t.byteAt (s.index.toNat + 2)).toNat = (s.reg x).toNat % 10)) ∧
    (s.index.toNat + 2 > 0xFFF → ∃ t, exec (.ldBVx x) s = .next t ∧ HaltedBy .memRange s t)

/-- R144, R204: `V[0]` to `V[x]` stored ascending from `I`; MemRange when `I + x` is above 0xFFF, and then nothing is written
(decision D11, log entry 12). `I` is not changed (decision D24, log entry 19). `run` and the cause of the halt are decision D16
(R209, log entry 17). The canonical form is the model's (log entry 28). -/
def Obligations.StoreRegisters : Prop :=
  ∀ (x : Reg) (s : State),
    (s.index.toNat + x.val ≤ 0xFFF → ∃ t, exec (.ldMemVx x) s = .next t ∧
      SameExcept { mem := dataAddresses s (x.val + 1) } s t ∧
      (s.mem.wf = true → ∀ r : Reg, r.val ≤ x.val → t.byteAt (s.index.toNat + r.val) = s.reg r)) ∧
    (s.index.toNat + x.val > 0xFFF → ∃ t, exec (.ldMemVx x) s = .next t ∧ HaltedBy .memRange s t)

/-- R145, R204: `V[0]` to `V[x]` loaded ascending from `I`, `VF` as a plain register; MemRange when `I + x` is above 0xFFF, and
then no register is written (decision D11, log entry 12). `I` is not changed (decision D24, log entry 19). `run` and the cause of
the halt are decision D16 (R209, log entry 17). -/
def Obligations.LoadRegisters : Prop :=
  ∀ (x : Reg) (s : State),
    (s.index.toNat + x.val ≤ 0xFFF → ∃ t, exec (.ldVxMem x) s = .next t ∧ SameExcept { regs := regsBelow x } s t ∧
      ∀ r : Reg, r.val ≤ x.val → t.reg r = s.byteAt (s.index.toNat + r.val)) ∧
    (s.index.toNat + x.val > 0xFFF → ∃ t, exec (.ldVxMem x) s = .next t ∧ HaltedBy .memRange s t)

/-! Display -/

/-- R160: every pixel off, `redraw` set, on a clear screen too (decision D28, log entry 22). -/
def Obligations.ClearDisplay : Prop :=
  ∀ s : State, ∃ t, exec .cls s = .next t ∧ (∀ px py, px < 64 → py < 32 → t.pixel px py = false) ∧ t.redraw = true ∧
    SameExcept { fb := true, redraw := true } s t

/-- R162: a run of sprite rows from row `py` down, with `ox` in 0 to 63 and rows in 0 to 45: a set bit inside the frame inverts its
pixel and collides when the pixel was on; a bit of 0 does neither. A bit outside the frame is dropped and never collides (R163,
decision D29, log entry 23). -/
def Obligations.BlitInvertsSetBits : Prop :=
  ∀ (rows : List Byte) (ox py : Nat) (c : Canvas), ox ≤ 63 → py + rows.length ≤ 46 →
    (∀ px qy, px < 64 → qy < 32 →
      (getPixel (blitRows ox py rows c).fb px qy ≠ getPixel c.fb px qy ↔
        ∃ r b, ∃ h : r < rows.length, b < 8 ∧ rows[r].getLsbD (7 - b) = true ∧ px = ox + b ∧ qy = py + r)) ∧
    ((blitRows ox py rows c).collision = true ↔
      c.collision = true ∨ ∃ r b, ∃ h : r < rows.length, b < 8 ∧ rows[r].getLsbD (7 - b) = true ∧ ox + b ≤ 63 ∧ py + r ≤ 31 ∧
        getPixel c.fb (ox + b) (py + r) = true)

/-- R161, R163, R164: the draw inverts exactly the pixels of the frame under a set sprite bit (clipped, not wrapped: decision D29,
log entry 23), `VF` is 1 exactly when one of them was on, `redraw` is set (decision D28, log entry 22); the origin is reduced, and
read before `VF` is written (decision D5, log entry 7). MemRange covers all `n` rows (decisions D11, D27, log entry 12). `run` and
the cause of the halt are decision D16 (R209, log entry 17). `I` is not changed (decision D24, log entry 19). -/
def Obligations.DrawSprite : Prop :=
  ∀ (x y : Reg) (n : Fin 16) (s : State),
    (n.val = 0 ∨ s.index.toNat + n.val - 1 ≤ 0xFFF → ∃ t, exec (.drw x y n) s = .next t ∧
      (∀ px py, px < 64 → py < 32 → t.pixel px py =
        (s.pixel px py ^^ s.spriteOver ((s.reg x).toNat % 64) ((s.reg y).toNat % 32) n.val px py)) ∧
      (t.reg 15 = 0 ∨ t.reg 15 = 1) ∧
      (t.reg 15 = 1 ↔ ∃ px py, px < 64 ∧ py < 32 ∧
        s.spriteOver ((s.reg x).toNat % 64) ((s.reg y).toNat % 32) n.val px py = true ∧ s.pixel px py = true) ∧
      t.redraw = true ∧ SameExcept { regs := [15], fb := true, redraw := true } s t) ∧
    (0 < n.val → s.index.toNat + n.val - 1 > 0xFFF → ∃ t, exec (.drw x y n) s = .next t ∧ HaltedBy .memRange s t)

/-! Timers and keys -/

/-- R171, R172, R173: the three timer instructions. -/
def Obligations.TimerRegisters : Prop :=
  (∀ w : Word, fieldOp w = 0xF → (fieldNN w = 0x07 → decodeWord w = .ldVxDt (fieldX w)) ∧
    (fieldNN w = 0x15 → decodeWord w = .ldDtVx (fieldX w)) ∧ (fieldNN w = 0x18 → decodeWord w = .ldStVx (fieldX w))) ∧
  ∀ (x : Reg) (s : State),
    (∃ t, exec (.ldVxDt x) s = .next t ∧ t.reg x = s.dt ∧ SameExcept { regs := [x] } s t) ∧
    (∃ t, exec (.ldDtVx x) s = .next t ∧ t.dt = s.reg x ∧ SameExcept { dt := true } s t) ∧
    ∃ t, exec (.ldStVx x) s = .next t ∧ t.st = s.reg x ∧ SameExcept { st := true } s t

/-- R175, R176, R205: the key skips on the sampled keys; KeyRange for an index above 15, which is not masked (decision D13, log
entry 14). `pc` moves modulo 4096 (decision D8, log entry 10). `run` and the cause of the halt are decision D16 (R209, log entry
17). -/
def Obligations.SkipsOnKey : Prop :=
  ∀ (x : Reg) (s : State),
    ((s.reg x).toNat ≤ 15 →
      (∃ t, exec (.skp x) s = .next t ∧
        t.pc.toNat = (if s.keys.getLsbD (s.reg x).toNat = true then (s.pc.toNat + 2) % 4096 else s.pc.toNat) ∧
        SameExcept { pc := true } s t) ∧
      ∃ t, exec (.sknp x) s = .next t ∧
        t.pc.toNat = (if s.keys.getLsbD (s.reg x).toNat = true then s.pc.toNat else (s.pc.toNat + 2) % 4096) ∧
        SameExcept { pc := true } s t) ∧
    ((s.reg x).toNat > 15 →
      (∃ t, exec (.skp x) s = .next t ∧ HaltedBy .keyRange s t) ∧ ∃ t, exec (.sknp x) s = .next t ∧ HaltedBy .keyRange s t)

/-- R177, R174: with no key down the whole Cycle has net zero advance; otherwise the lowest key that is down is stored (decision D14,
log entry 15). `pc` moves modulo 4096 (decision D8, log entry 10). -/
def Obligations.WaitForKey : Prop :=
  (∀ (x : Reg) (s : State), s.keys = 0 →
    ∃ t, exec (.ldVxK x) s.advance = .next t ∧ t.pc = s.pc ∧ SameExcept {} s t) ∧
  ∀ (x : Reg) (s : State) (k : Nat), k < 16 → s.keys.getLsbD k = true → (∀ j, j < k → s.keys.getLsbD j = false) →
    ∃ t, exec (.ldVxK x) s = .next t ∧ (t.reg x).toNat = k ∧ SameExcept { regs := [x] } s t
end

