-- ==== Sys2Proof/Laws/Decode.lean ====
section
/-! SUPPORT. The fields of a word and the words of the formats as numbers (30_encoding R71, R72), and what the fields of a format's
word are. -/

namespace Sys2Proof

/-- Concatenation as a number. -/
theorem append_toNat {n m : Nat} (a : BitVec n) (b : BitVec m) : (a ++ b).toNat = a.toNat * 2 ^ m + b.toNat := by
  rw [BitVec.toNat_append, ← Nat.shiftLeft_add_eq_or_of_lt b.isLt, Nat.shiftLeft_eq]

/-- A slice as a number. -/
theorem slice_toNat (w : Word) (lo len : Nat) : (w.extractLsb' lo len).toNat = w.toNat / 2 ^ lo % 2 ^ len := by
  rw [BitVec.extractLsb'_toNat, Nat.shiftRight_eq_div_pow]

variable (w : Word)

theorem op_toNat : (fieldOp w).toNat = w.toNat / 4096 := by
  have := w.isLt
  rw [fieldOp, slice_toNat]
  omega

theorem x_val : (fieldX w).val = w.toNat / 256 % 16 := slice_toNat w 8 4

theorem y_val : (fieldY w).val = w.toNat / 16 % 16 := slice_toNat w 4 4

theorem n_val : (fieldN w).val = w.toNat % 16 := by
  rw [show (fieldN w).val = w.toNat / 2 ^ 0 % 2 ^ 4 from slice_toNat w 0 4]
  omega

theorem nn_toNat : (fieldNN w).toNat = w.toNat % 256 := by
  rw [fieldNN, slice_toNat]
  omega

theorem nnn_toNat : (fieldNNN w).toNat = w.toNat % 4096 := by
  rw [fieldNNN, slice_toNat]
  omega

theorem nibble_toNat (k : Fin 16) : (nibble k).toNat = k.val := rfl

variable (op n : BitVec 4) (x y : Reg) (nn : Byte) (nnn : Addr)

theorem formatNNN_toNat : (formatNNN op nnn).toNat = op.toNat * 4096 + nnn.toNat := append_toNat op nnn

theorem formatXNN_toNat : (formatXNN op x nn).toNat = (op.toNat * 16 + x.val) * 256 + nn.toNat := by
  rw [formatXNN, append_toNat, append_toNat, nibble_toNat]
  omega

theorem formatXYN_toNat :
    (formatXYN op x y n).toNat = ((op.toNat * 16 + x.val) * 16 + y.val) * 16 + n.toNat := by
  rw [formatXYN, append_toNat, append_toNat, append_toNat, nibble_toNat, nibble_toNat]
  omega

@[simp] theorem fieldOp_formatNNN : fieldOp (formatNNN op nnn) = op := by
  have := nnn.isLt
  exact BitVec.eq_of_toNat_eq (by rw [op_toNat, formatNNN_toNat]; omega)

@[simp] theorem fieldNNN_formatNNN : fieldNNN (formatNNN op nnn) = nnn := by
  have := nnn.isLt
  exact BitVec.eq_of_toNat_eq (by rw [nnn_toNat, formatNNN_toNat]; omega)

@[simp] theorem fieldOp_formatXNN : fieldOp (formatXNN op x nn) = op := by
  have := nn.isLt
  have := x.isLt
  exact BitVec.eq_of_toNat_eq (by rw [op_toNat, formatXNN_toNat]; omega)

@[simp] theorem fieldX_formatXNN : fieldX (formatXNN op x nn) = x := by
  have := nn.isLt
  exact Fin.ext (by rw [x_val, formatXNN_toNat]; omega)

@[simp] theorem fieldNN_formatXNN : fieldNN (formatXNN op x nn) = nn := by
  have := nn.isLt
  exact BitVec.eq_of_toNat_eq (by rw [nn_toNat, formatXNN_toNat]; omega)

@[simp] theorem fieldOp_formatXYN : fieldOp (formatXYN op x y n) = op := by
  have := n.isLt
  exact BitVec.eq_of_toNat_eq (by rw [op_toNat, formatXYN_toNat]; omega)

@[simp] theorem fieldX_formatXYN : fieldX (formatXYN op x y n) = x := by
  have := n.isLt
  exact Fin.ext (by rw [x_val, formatXYN_toNat]; omega)

@[simp] theorem fieldY_formatXYN : fieldY (formatXYN op x y n) = y := by
  have := n.isLt
  exact Fin.ext (by rw [y_val, formatXYN_toNat]; omega)

@[simp] theorem fieldN_formatXYN : (fieldN (formatXYN op x y n)).val = n.toNat := by
  have := n.isLt
  rw [n_val, formatXYN_toNat]
  omega

@[simp] theorem fieldY_formatXNN : (fieldY (formatXNN op x nn)).val = nn.toNat / 16 := by
  have := nn.isLt
  rw [y_val, formatXNN_toNat]
  omega

@[simp] theorem fieldN_formatXNN : (fieldN (formatXNN op x nn)).val = nn.toNat % 16 := by
  rw [n_val, formatXNN_toNat]
  omega

/-- Two words with the same four nibbles are one word. -/
theorem word_ext {v w : Word} (hop : fieldOp v = fieldOp w) (hx : fieldX v = fieldX w) (hy : fieldY v = fieldY w)
    (hn : fieldN v = fieldN w) : v = w := by
  have h₁ := congrArg BitVec.toNat hop
  have h₂ := congrArg Fin.val hx
  have h₃ := congrArg Fin.val hy
  have h₄ := congrArg Fin.val hn
  rw [op_toNat, op_toNat] at h₁
  rw [x_val, x_val] at h₂
  rw [y_val, y_val] at h₃
  rw [n_val, n_val] at h₄
  exact BitVec.eq_of_toNat_eq (by omega)

/-- A row matches a word nibble by nibble (30_encoding R74). -/
theorem selects_iff (r : OpcodeRow) :
    r.selects w = true ↔
      fieldOp w &&& fieldOp r.mask = fieldOp r.value ∧
        nibble (fieldX w) &&& nibble (fieldX r.mask) = nibble (fieldX r.value) ∧
        nibble (fieldY w) &&& nibble (fieldY r.mask) = nibble (fieldY r.value) ∧
        nibble (fieldN w) &&& nibble (fieldN r.mask) = nibble (fieldN r.value) := by
  have hop : fieldOp (w &&& r.mask) = fieldOp w &&& fieldOp r.mask := BitVec.extractLsb'_and
  have hx : nibble (fieldX (w &&& r.mask)) = nibble (fieldX w) &&& nibble (fieldX r.mask) := BitVec.extractLsb'_and
  have hy : nibble (fieldY (w &&& r.mask)) = nibble (fieldY w) &&& nibble (fieldY r.mask) := BitVec.extractLsb'_and
  have hn : nibble (fieldN (w &&& r.mask)) = nibble (fieldN w) &&& nibble (fieldN r.mask) := BitVec.extractLsb'_and
  have inj {a b : Fin 16} (h : nibble a = nibble b) : a = b := Fin.ext (congrArg BitVec.toNat h)
  rw [OpcodeRow.selects, beq_iff_eq, ← hop, ← hx, ← hy, ← hn]
  exact ⟨fun h => by simp [h], fun ⟨h₁, h₂, h₃, h₄⟩ => word_ext h₁ (inj h₂) (inj h₃) (inj h₄)⟩

/-- A word is its two bytes (20_memory R53). -/
theorem wordOfBytes_slices : wordOfBytes (w.extractLsb' 8 8) (w.extractLsb' 0 8) = w := by
  have := w.isLt
  exact BitVec.eq_of_toNat_eq (by rw [wordOfBytes, append_toNat, slice_toNat, slice_toNat]; omega)

/-- The bytes of a word decode as the word does. -/
theorem decodeBytes_bytesOfWord (rest : List Byte) :
    decodeBytes (bytesOfWord w ++ rest) = .ok (decodeWord w, rest) := by
  simp only [bytesOfWord, List.cons_append, List.nil_append, decodeBytes, wordOfBytes_slices]

/-- The host's question to the decoder, answered by the decoder of words. -/
theorem decodeTableWord_eq (nbits k : Nat) : decodeTableWord nbits k = some (decodeWord (tableWord nbits k)) := by
  have := decodeBytes_bytesOfWord (tableWord nbits k) []
  simp only [List.append_nil] at this
  simp only [decodeTableWord, this]

/-- No two rows of the table fit one word: some bit that both fix they fix differently (30_encoding R74: "The patterns do not
overlap"). -/
theorem rows_disjoint : opcodeTable.Pairwise fun r r' => r.mask &&& r'.mask &&& (r.value ^^^ r'.value) ≠ 0 := by decide

end Sys2Proof
end

