-- ==== Sys2Proof/Laws/Display.lean ====
section
/-! SUPPORT. The sprite compositor: which pixels a row and a whole sprite invert, and when they collide (43_display R162 to R164). -/

namespace Sys2Proof.Machine

/-- A single set bit. -/
theorem getLsbD_oneHot {i k : Nat} (hi : i < 64) : (1#64 <<< k).getLsbD i = decide (i = k) := by
  rw [BitVec.getLsbD_shiftLeft]
  rcases Nat.lt_trichotomy i k with h | h | h
  · simp [h, h.ne]
  · simp [h, h ▸ hi]
  · have : ¬ i < k := by omega
    have : i - k ≠ 0 := by omega
    simp [*, BitVec.getLsbD_one]
    omega

/-- Inverting a pixel inverts it and leaves every other pixel of the frame as it was. -/
theorem getPixel_flipPixel {fb : FrameBuffer} {px py qx qy : Nat} (hqx : qx < 64) (hqy : qy < 32) :
    getPixel (flipPixel fb px py) qx qy = (getPixel fb qx qy ^^ decide (qx = px ∧ qy = py)) := by
  unfold flipPixel
  split
  · rename_i hpy
    simp only [getPixel, dif_pos hqy, Vector.getElem_set]
    split
    · subst_vars
      simp [BitVec.getLsbD_xor, getLsbD_oneHot hqx]
    · have : ¬ (qx = px ∧ qy = py) := fun h => ‹¬py = qy› h.2.symm
      simp only [this, decide_false, Bool.xor_false]
  · have : ¬ (qx = px ∧ qy = py) := by omega
    simp only [this, decide_false, Bool.xor_false]

@[simp] theorem getPixel_blankFrame (px py : Nat) : getPixel blankFrame px py = false := by
  simp [getPixel, blankFrame]

/-- Two framebuffers with the same pixels are one framebuffer. -/
theorem frame_ext {fb fb' : FrameBuffer} (h : ∀ px py, px < 64 → py < 32 → getPixel fb px py = getPixel fb' px py) : fb = fb' := by
  refine Vector.ext fun py hpy => BitVec.eq_of_getLsbD_eq fun px hpx => ?_
  simpa [getPixel, hpy] using h px py hpx hpy

variable {row : Byte} {ox py : Nat} {c : Canvas}

/-- The first `n` bits of a sprite row: the pixels they invert, and the collisions they find. -/
theorem blitPrefix_spec (n : Nat) :
    (∀ px qy, px < 64 → qy < 32 →
      getPixel ((List.range n).foldl (blitBit row ox py) c).fb px qy =
        (getPixel c.fb px qy ^^ (decide (qy = py ∧ ox ≤ px ∧ px < ox + n) && spriteBit row (px - ox)))) ∧
    (((List.range n).foldl (blitBit row ox py) c).collision = true ↔
      c.collision = true ∨
        ∃ b, b < n ∧ spriteBit row b = true ∧ ox + b ≤ 63 ∧ py ≤ 31 ∧ getPixel c.fb (ox + b) py = true) := by
  induction n with
  | zero =>
    refine ⟨fun px qy _ _ => ?_, by simp⟩
    have : ¬ (qy = py ∧ ox ≤ px ∧ px < ox + 0) := by omega
    simp only [this, decide_false, Bool.false_and, Bool.xor_false, List.range_zero, List.foldl_nil]
  | succ n ih =>
    obtain ⟨ihPix, ihCol⟩ := ih
    simp only [List.range_succ, List.foldl_append, List.foldl_cons, List.foldl_nil]
    generalize hd : (List.range n).foldl (blitBit row ox py) c = d at ihPix ihCol
    unfold blitBit
    split
    · rename_i hbit
      obtain ⟨hset, hx, hy⟩ := hbit
      refine ⟨fun px qy hpx hqy => ?_, ?_⟩
      · simp only [getPixel_flipPixel hpx hqy, ihPix px qy hpx hqy]
        by_cases hq : px = ox + n ∧ qy = py
        · obtain ⟨rfl, rfl⟩ := hq
          simp [hset]
        · have h₁ : (qy = py ∧ ox ≤ px ∧ px < ox + (n + 1)) ↔ (qy = py ∧ ox ≤ px ∧ px < ox + n) := by omega
          simp only [hq, h₁, decide_false, Bool.xor_false]
      · have hpix := ihPix (ox + n) py (by omega) (by omega)
        have hnot : ¬ (ox + n < ox + n) := by omega
        simp only [hnot, and_false, decide_false, Bool.false_and, Bool.xor_false] at hpix
        simp only [Bool.or_eq_true, ihCol, hpix]
        constructor
        · rintro ((h | ⟨b, hb, h⟩) | h)
          · exact .inl h
          · exact .inr ⟨b, by omega, h⟩
          · exact .inr ⟨n, by omega, hset, hx, hy, h⟩
        · rintro (h | ⟨b, hb, h⟩)
          · exact .inl (.inl h)
          · rcases Nat.lt_succ_iff_lt_or_eq.1 hb with hb | rfl
            · exact .inl (.inr ⟨b, hb, h⟩)
            · exact .inr h.2.2.2
    · rename_i hbit
      refine ⟨fun px qy hpx hqy => ?_, ?_⟩
      · rw [ihPix px qy hpx hqy]
        by_cases hpn : px = ox + n ∧ qy = py
        · obtain ⟨rfl, rfl⟩ := hpn
          have : spriteBit row (ox + n - ox) = false := by
            rw [Nat.add_sub_cancel_left]
            exact Bool.eq_false_iff.2 fun h => hbit ⟨h, by omega, by omega⟩
          simp only [this, Bool.and_false]
        · have : (qy = py ∧ ox ≤ px ∧ px < ox + (n + 1)) ↔ (qy = py ∧ ox ≤ px ∧ px < ox + n) := by omega
          simp only [this]
      · rw [ihCol]
        constructor
        · rintro (h | ⟨b, hb, h⟩)
          · exact .inl h
          · exact .inr ⟨b, by omega, h⟩
        · rintro (h | ⟨b, hb, h⟩)
          · exact .inl h
          · rcases Nat.lt_succ_iff_lt_or_eq.1 hb with hb | rfl
            · exact .inr ⟨b, hb, h⟩
            · exact absurd ⟨h.1, h.2.1, h.2.2.1⟩ hbit

/-- A whole row (43_display R162): the pixels it inverts, and the collisions it finds. -/
theorem blit_spec :
    (∀ px qy, px < 64 → qy < 32 →
      getPixel (blit row ox py c).fb px qy =
        (getPixel c.fb px qy ^^ (decide (qy = py ∧ ox ≤ px ∧ px < ox + 8) && spriteBit row (px - ox)))) ∧
    ((blit row ox py c).collision = true ↔
      c.collision = true ∨
        ∃ b, b < 8 ∧ spriteBit row b = true ∧ ox + b ≤ 63 ∧ py ≤ 31 ∧ getPixel c.fb (ox + b) py = true) :=
  blitPrefix_spec 8

/-- A whole sprite: a pixel of the frame is inverted when a row lies over it with its bit set, and there is a collision when such a
pixel was on. -/
theorem blitRows_spec {rows : List Byte} :
    (∀ px qy, px < 64 → qy < 32 →
      getPixel (blitRows ox py rows c).fb px qy =
        (getPixel c.fb px qy ^^
          (decide (ox ≤ px ∧ px < ox + 8 ∧ py ≤ qy ∧ qy < py + rows.length) &&
            spriteBit (rows.getD (qy - py) 0) (px - ox)))) ∧
    ((blitRows ox py rows c).collision = true ↔
      c.collision = true ∨
        ∃ px qy, px < 64 ∧ qy < 32 ∧ (ox ≤ px ∧ px < ox + 8 ∧ py ≤ qy ∧ qy < py + rows.length) ∧
          spriteBit (rows.getD (qy - py) 0) (px - ox) = true ∧ getPixel c.fb px qy = true) := by
  induction rows generalizing py c with
  | nil =>
    refine ⟨fun px qy _ _ => ?_, ?_⟩
    · have : ¬ (ox ≤ px ∧ px < ox + 8 ∧ py ≤ qy ∧ qy < py + ([] : List Byte).length) := by
        simp only [List.length_nil]
        omega
      simp only [blitRows, this, decide_false, Bool.false_and, Bool.xor_false]
    · simp only [blitRows, List.length_nil, Nat.add_zero]
      constructor
      · exact .inl
      · rintro (h | ⟨px, qy, -, -, h, -⟩)
        · exact h
        · omega
  | cons row rows ih =>
    obtain ⟨rowPix, rowCol⟩ := blit_spec (row := row) (ox := ox) (py := py) (c := c)
    obtain ⟨ihPix, ihCol⟩ := ih (py := py + 1) (c := blit row ox py c)
    simp only [blitRows, List.length_cons]
    have tail {qy : Nat} (h : py + 1 ≤ qy) : (row :: rows).getD (qy - py) 0 = rows.getD (qy - (py + 1)) 0 := by
      obtain ⟨k, hk⟩ : ∃ k, qy - py = k + 1 := ⟨qy - py - 1, by omega⟩
      have hk' : qy - (py + 1) = k := by omega
      simp [hk, hk']
    refine ⟨fun px qy hpx hqy => ?_, ?_⟩
    · rw [ihPix px qy hpx hqy, rowPix px qy hpx hqy]
      by_cases hq : qy = py
      · subst hq
        have h₁ : ¬ (ox ≤ px ∧ px < ox + 8 ∧ qy + 1 ≤ qy ∧ qy < qy + 1 + rows.length) := by omega
        have h₂ : (ox ≤ px ∧ px < ox + 8 ∧ qy ≤ qy ∧ qy < qy + (rows.length + 1)) ↔ (ox ≤ px ∧ px < ox + 8) := by omega
        simp only [h₁, h₂, true_and, Nat.sub_self, List.getD_cons_zero, decide_false, Bool.false_and, Bool.xor_false]
      · have h₁ : ¬ (qy = py ∧ ox ≤ px ∧ px < ox + 8) := fun h => hq h.1
        have h₂ : (ox ≤ px ∧ px < ox + 8 ∧ py ≤ qy ∧ qy < py + (rows.length + 1)) ↔
            (ox ≤ px ∧ px < ox + 8 ∧ py + 1 ≤ qy ∧ qy < py + 1 + rows.length) := by omega
        simp only [h₁, h₂, decide_false, Bool.false_and, Bool.xor_false]
        by_cases hle : py + 1 ≤ qy
        · rw [tail hle]
        · have : ¬ (ox ≤ px ∧ px < ox + 8 ∧ py + 1 ≤ qy ∧ qy < py + 1 + rows.length) := fun h => hle h.2.2.1
          simp only [this, decide_false, Bool.false_and]
    · rw [ihCol, rowCol]
      constructor
      · rintro ((h | ⟨b, hb, hset, hx, hy, hon⟩) | ⟨px, qy, hpx, hqy, hin, hset, hon⟩)
        · exact .inl h
        · exact .inr ⟨ox + b, py, by omega, by omega, by omega, by simpa using hset, hon⟩
        · rw [rowPix px qy hpx hqy] at hon
          have : ¬ (qy = py ∧ ox ≤ px ∧ px < ox + 8) := by omega
          simp only [this, decide_false, Bool.false_and, Bool.xor_false] at hon
          exact .inr ⟨px, qy, hpx, hqy, by omega, by rwa [tail (by omega)], hon⟩
      · rintro (h | ⟨px, qy, hpx, hqy, hin, hset, hon⟩)
        · exact .inl (.inl h)
        · by_cases hq : qy = py
          · subst hq
            refine .inl (.inr ⟨px - ox, by omega, by simpa using hset, by omega, by omega, ?_⟩)
            rwa [Nat.add_sub_cancel' hin.1]
          · refine .inr ⟨px, qy, hpx, hqy, by omega, by rwa [← tail (by omega)], ?_⟩
            rw [rowPix px qy hpx hqy]
            have : ¬ (qy = py ∧ ox ≤ px ∧ px < ox + 8) := fun h => hq h.1
            simp only [this, decide_false, Bool.false_and, Bool.xor_false]
            exact hon

end Sys2Proof.Machine
end

