-- ==== Sys2Proof/Laws/Memory.lean ====
section
/-! SUPPORT. Main memory: the canonical form is kept by every operation, a read after a write, block reads and writes, a loaded image. -/

namespace Sys2Proof.Machine

/-! The canonical form -/

theorem wfFrom_cons {lo a : Nat} {x : Byte} {rest : Memory} :
    Memory.wfFrom lo ((a, x) :: rest) = true ↔
      lo ≤ a ∧ a < Config.memSize ∧ x ≠ initialByte a ∧ Memory.wfFrom (a + 1) rest = true := by
  simp only [Memory.wfFrom, Bool.and_eq_true, decide_eq_true_eq, bne_iff_ne, ne_eq, and_assoc]

theorem wfFrom_mono {lo lo' : Nat} {m : Memory} (h : lo' ≤ lo) (hm : Memory.wfFrom lo m = true) :
    Memory.wfFrom lo' m = true := by
  cases m with
  | nil => rfl
  | cons e rest =>
    obtain ⟨h₁, h₂⟩ := wfFrom_cons.1 hm
    exact wfFrom_cons.2 ⟨h.trans h₁, h₂⟩

theorem wfFrom_consByte {lo a : Nat} {x : Byte} {rest : Memory} (hlo : lo ≤ a) (ha : a < Config.memSize)
    (h : Memory.wfFrom (a + 1) rest = true) : Memory.wfFrom lo (Memory.consByte a x rest) = true := by
  unfold Memory.consByte
  split
  · exact wfFrom_mono (by omega) h
  · exact wfFrom_cons.2 ⟨hlo, ha, ‹_›, h⟩

theorem wfFrom_put {lo a : Nat} {x : Byte} {m : Memory} (hlo : lo ≤ a) (ha : a < Config.memSize)
    (h : Memory.wfFrom lo m = true) : Memory.wfFrom lo (m.put a x) = true := by
  induction m generalizing lo with
  | nil => exact wfFrom_consByte hlo ha rfl
  | cons e rest ih =>
    obtain ⟨b, y⟩ := e
    obtain ⟨h₁, h₂, h₃, h₄⟩ := wfFrom_cons.1 h
    simp only [Memory.put]
    split
    · exact wfFrom_consByte hlo ha (wfFrom_cons.2 ⟨by omega, h₂, h₃, h₄⟩)
    · split
      · subst_vars
        exact wfFrom_consByte hlo ha h₄
      · exact wfFrom_cons.2 ⟨h₁, h₂, h₃, ih (by omega) h₄⟩

theorem wf_put {a : Nat} {x : Byte} {m : Memory} (ha : a < Config.memSize) (h : m.wf = true) : (m.put a x).wf = true :=
  wfFrom_put (Nat.zero_le a) ha h

theorem wf_write? {a : Nat} {x : Byte} {m m' : Memory} (h : m.wf = true) (hw : m.write? a x = some m') : m'.wf = true := by
  simp only [Memory.write?] at hw
  split at hw
  · exact Option.some.inj hw ▸ wf_put ‹_› h
  · cases hw

theorem wf_writeBytes? {a : Nat} {xs : List Byte} {m m' : Memory} (h : m.wf = true) (hw : m.writeBytes? a xs = some m') :
    m'.wf = true := by
  induction xs generalizing m a with
  | nil => exact Option.some.inj hw ▸ h
  | cons x xs ih =>
    simp only [Memory.writeBytes?] at hw
    split at hw
    · cases hw
    · exact ih (wf_write? h ‹_›) hw

theorem wfFrom_imageCells {a : Nat} {xs : List Byte} (h : a + xs.length ≤ Config.memSize) :
    Memory.wfFrom a (imageCells a xs) = true := by
  induction xs generalizing a with
  | nil => rfl
  | cons x xs ih =>
    simp only [List.length_cons] at h
    exact wfFrom_consByte le_rfl (by omega) (ih (by omega))

/-! Reads of one byte -/

theorem lookup_below {lo a : Nat} {m : Memory} (h : Memory.wfFrom lo m = true) (ha : a < lo) : m.lookup a = initialByte a := by
  induction m generalizing lo with
  | nil => rfl
  | cons e rest ih =>
    obtain ⟨h₁, -, -, h₄⟩ := wfFrom_cons.1 h
    simp only [Memory.lookup]
    rw [if_neg (by omega)]
    exact ih h₄ (by omega)

theorem lookup_consByte_other {a b : Nat} {x : Byte} {rest : Memory} (hb : b ≠ a) :
    (Memory.consByte a x rest).lookup b = rest.lookup b := by
  unfold Memory.consByte
  split
  · rfl
  · simp [Memory.lookup, hb.symm]

theorem lookup_consByte_same {a : Nat} {x : Byte} {rest : Memory} (h : Memory.wfFrom (a + 1) rest = true) :
    (Memory.consByte a x rest).lookup a = x := by
  unfold Memory.consByte
  split
  · rw [lookup_below h (Nat.lt_succ_self a)]
    exact (‹x = initialByte a›).symm
  · simp [Memory.lookup]

/-- A write leaves every other place alone, whatever the list. -/
theorem lookup_put_other {a b : Nat} {x : Byte} {m : Memory} (hb : b ≠ a) : (m.put a x).lookup b = m.lookup b := by
  induction m with
  | nil => exact lookup_consByte_other hb
  | cons e rest ih =>
    obtain ⟨c, y⟩ := e
    simp only [Memory.put]
    split
    · exact lookup_consByte_other hb
    · split
      · subst_vars
        rw [lookup_consByte_other hb]
        simp [Memory.lookup, hb.symm]
      · simp only [Memory.lookup, ih]

theorem lookup_put_same_from {lo a : Nat} {x : Byte} {m : Memory} (h : Memory.wfFrom lo m = true) : (m.put a x).lookup a = x := by
  induction m generalizing lo with
  | nil => exact lookup_consByte_same rfl
  | cons e rest ih =>
    obtain ⟨c, y⟩ := e
    obtain ⟨h₁, h₂, h₃, h₄⟩ := wfFrom_cons.1 h
    simp only [Memory.put]
    split
    · exact lookup_consByte_same (wfFrom_cons.2 ⟨by omega, h₂, h₃, h₄⟩)
    · split
      · subst_vars
        exact lookup_consByte_same h₄
      · simp only [Memory.lookup]
        rw [if_neg (by omega)]
        exact ih h₄

/-- A read after a write to the same place gives the value written. -/
theorem lookup_put_same {a : Nat} {x : Byte} {m : Memory} (h : m.wf = true) : (m.put a x).lookup a = x :=
  lookup_put_same_from h

theorem lookup_put {a b : Nat} {x : Byte} {m : Memory} (h : m.wf = true) :
    (m.put a x).lookup b = if b = a then x else m.lookup b := by
  split
  · subst_vars
    exact lookup_put_same h
  · exact lookup_put_other ‹_›

theorem read?_lt {a : Nat} {m : Memory} (h : a < Config.memSize) : m.read? a = some (m.lookup a) := if_pos h

theorem read?_ge {a : Nat} {m : Memory} (h : Config.memSize ≤ a) : m.read? a = none := if_neg (by omega)

/-! Blocks -/

/-- A block read inside memory answers its bytes in order. -/
theorem readBytes?_eq {a n : Nat} {m : Memory} (h : a + n ≤ Config.memSize) :
    m.readBytes? a n = some ((List.range n).map fun k => m.lookup (a + k)) := by
  induction n generalizing a with
  | zero => rfl
  | succ n ih =>
    simp only [Memory.readBytes?, read?_lt (show a < Config.memSize by omega), ih (show a + 1 + n ≤ Config.memSize by omega)]
    simp [List.range_succ_eq_map, Nat.add_assoc, Nat.add_comm 1]

/-- A block write inside memory completes; it leaves its bytes where they belong (memory being canonical) and every other byte as
it was. -/
theorem writeBytes?_spec {a : Nat} {xs : List Byte} {m : Memory} (h : a + xs.length ≤ Config.memSize) :
    ∃ m', m.writeBytes? a xs = some m' ∧ (∀ b, (b < a ∨ a + xs.length ≤ b) → m'.lookup b = m.lookup b) ∧
      (m.wf = true → ∀ k (hk : k < xs.length), m'.lookup (a + k) = xs[k]) := by
  induction xs generalizing a m with
  | nil => exact ⟨m, rfl, fun _ _ => rfl, fun _ k hk => by simp at hk⟩
  | cons x xs ih =>
    simp only [List.length_cons] at h
    have ha : a < Config.memSize := by omega
    obtain ⟨m', hm', hout, hin⟩ := ih (a := a + 1) (m := m.put a x) (by omega)
    refine ⟨m', by simp only [Memory.writeBytes?, Memory.write?, if_pos ha, hm'], ?_, ?_⟩
    · intro b hb
      simp only [List.length_cons] at hb
      rw [hout b (by omega), lookup_put_other (by omega)]
    · intro hwf k hk
      cases k with
      | zero => simpa [lookup_put_same hwf] using hout a (by omega)
      | succ k => simpa [Nat.add_assoc, Nat.add_comm 1] using hin (wf_put ha hwf) k (by simpa using hk)

/-- A loaded image: its bytes from `a` up, every other byte as Reset leaves it. -/
theorem lookup_imageCells {a b : Nat} {xs : List Byte} (h : a + xs.length ≤ Config.memSize) :
    (imageCells a xs).lookup b = if hb : a ≤ b ∧ b < a + xs.length then xs[b - a] else initialByte b := by
  induction xs generalizing a with
  | nil => simp [imageCells, Memory.lookup]
  | cons x xs ih =>
    simp only [List.length_cons] at h
    simp only [imageCells, List.length_cons]
    rcases eq_or_ne b a with rfl | hne
    · rw [lookup_consByte_same (wfFrom_imageCells (by omega))]
      simp
    · rw [lookup_consByte_other hne, ih (by omega)]
      by_cases hb : a + 1 ≤ b ∧ b < a + 1 + xs.length
      · rw [dif_pos hb, dif_pos (by omega)]
        obtain ⟨k, hk⟩ : ∃ k, b - a = k + 1 := ⟨b - a - 1, by omega⟩
        have hk' : b - (a + 1) = k := by omega
        simp only [hk, hk', List.getElem_cons_succ]
      · rw [dif_neg hb, dif_neg (by omega)]

end Sys2Proof.Machine
end

