-- ==== Sys2Proof/Laws/State.lean ====
section
/-! SUPPORT. What each update of State leaves in each field, one lemma a field and an update, all by rfl; and what a register reads
after a register write. -/

namespace Sys2Proof.Machine

variable (s : State)

/-! `State.setReg` -/

@[simp] theorem setReg_pc (x : Reg) (b : Byte) : (s.setReg x b).pc = s.pc := rfl
@[simp] theorem setReg_index (x : Reg) (b : Byte) : (s.setReg x b).index = s.index := rfl
@[simp] theorem setReg_stack (x : Reg) (b : Byte) : (s.setReg x b).stack = s.stack := rfl
@[simp] theorem setReg_sp (x : Reg) (b : Byte) : (s.setReg x b).sp = s.sp := rfl
@[simp] theorem setReg_mem (x : Reg) (b : Byte) : (s.setReg x b).mem = s.mem := rfl
@[simp] theorem setReg_fb (x : Reg) (b : Byte) : (s.setReg x b).fb = s.fb := rfl
@[simp] theorem setReg_dt (x : Reg) (b : Byte) : (s.setReg x b).dt = s.dt := rfl
@[simp] theorem setReg_st (x : Reg) (b : Byte) : (s.setReg x b).st = s.st := rfl
@[simp] theorem setReg_redraw (x : Reg) (b : Byte) : (s.setReg x b).redraw = s.redraw := rfl
@[simp] theorem setReg_run (x : Reg) (b : Byte) : (s.setReg x b).run = s.run := rfl
@[simp] theorem setReg_haltCause (x : Reg) (b : Byte) : (s.setReg x b).haltCause = s.haltCause := rfl
@[simp] theorem setReg_keys (x : Reg) (b : Byte) : (s.setReg x b).keys = s.keys := rfl
@[simp] theorem setReg_stopReq (x : Reg) (b : Byte) : (s.setReg x b).stopReq = s.stopReq := rfl
@[simp] theorem setReg_rnd (x : Reg) (b : Byte) : (s.setReg x b).rnd = s.rnd := rfl
@[simp] theorem setReg_schedule (x : Reg) (b : Byte) : (s.setReg x b).schedule = s.schedule := rfl
@[simp] theorem setReg_draws (x : Reg) (b : Byte) : (s.setReg x b).draws = s.draws := rfl

/-! `State.setFlag` -/

@[simp] theorem setFlag_pc (f : Bool) : (s.setFlag f).pc = s.pc := rfl
@[simp] theorem setFlag_index (f : Bool) : (s.setFlag f).index = s.index := rfl
@[simp] theorem setFlag_stack (f : Bool) : (s.setFlag f).stack = s.stack := rfl
@[simp] theorem setFlag_sp (f : Bool) : (s.setFlag f).sp = s.sp := rfl
@[simp] theorem setFlag_mem (f : Bool) : (s.setFlag f).mem = s.mem := rfl
@[simp] theorem setFlag_fb (f : Bool) : (s.setFlag f).fb = s.fb := rfl
@[simp] theorem setFlag_dt (f : Bool) : (s.setFlag f).dt = s.dt := rfl
@[simp] theorem setFlag_st (f : Bool) : (s.setFlag f).st = s.st := rfl
@[simp] theorem setFlag_redraw (f : Bool) : (s.setFlag f).redraw = s.redraw := rfl
@[simp] theorem setFlag_run (f : Bool) : (s.setFlag f).run = s.run := rfl
@[simp] theorem setFlag_haltCause (f : Bool) : (s.setFlag f).haltCause = s.haltCause := rfl
@[simp] theorem setFlag_keys (f : Bool) : (s.setFlag f).keys = s.keys := rfl
@[simp] theorem setFlag_stopReq (f : Bool) : (s.setFlag f).stopReq = s.stopReq := rfl
@[simp] theorem setFlag_rnd (f : Bool) : (s.setFlag f).rnd = s.rnd := rfl
@[simp] theorem setFlag_schedule (f : Bool) : (s.setFlag f).schedule = s.schedule := rfl
@[simp] theorem setFlag_draws (f : Bool) : (s.setFlag f).draws = s.draws := rfl

/-! `State.setPc` -/

@[simp] theorem setPc_v (t : Addr) : (s.setPc t).v = s.v := rfl
@[simp] theorem setPc_reg (t : Addr) (r : Reg) : (s.setPc t).reg r = s.reg r := rfl
@[simp] theorem setPc_pc (t : Addr) : (s.setPc t).pc = t := rfl
@[simp] theorem setPc_index (t : Addr) : (s.setPc t).index = s.index := rfl
@[simp] theorem setPc_stack (t : Addr) : (s.setPc t).stack = s.stack := rfl
@[simp] theorem setPc_sp (t : Addr) : (s.setPc t).sp = s.sp := rfl
@[simp] theorem setPc_mem (t : Addr) : (s.setPc t).mem = s.mem := rfl
@[simp] theorem setPc_fb (t : Addr) : (s.setPc t).fb = s.fb := rfl
@[simp] theorem setPc_dt (t : Addr) : (s.setPc t).dt = s.dt := rfl
@[simp] theorem setPc_st (t : Addr) : (s.setPc t).st = s.st := rfl
@[simp] theorem setPc_redraw (t : Addr) : (s.setPc t).redraw = s.redraw := rfl
@[simp] theorem setPc_run (t : Addr) : (s.setPc t).run = s.run := rfl
@[simp] theorem setPc_haltCause (t : Addr) : (s.setPc t).haltCause = s.haltCause := rfl
@[simp] theorem setPc_keys (t : Addr) : (s.setPc t).keys = s.keys := rfl
@[simp] theorem setPc_stopReq (t : Addr) : (s.setPc t).stopReq = s.stopReq := rfl
@[simp] theorem setPc_rnd (t : Addr) : (s.setPc t).rnd = s.rnd := rfl
@[simp] theorem setPc_schedule (t : Addr) : (s.setPc t).schedule = s.schedule := rfl
@[simp] theorem setPc_draws (t : Addr) : (s.setPc t).draws = s.draws := rfl

/-! `State.setIndex` -/

@[simp] theorem setIndex_v (i : Word) : (s.setIndex i).v = s.v := rfl
@[simp] theorem setIndex_reg (i : Word) (r : Reg) : (s.setIndex i).reg r = s.reg r := rfl
@[simp] theorem setIndex_pc (i : Word) : (s.setIndex i).pc = s.pc := rfl
@[simp] theorem setIndex_index (i : Word) : (s.setIndex i).index = i := rfl
@[simp] theorem setIndex_stack (i : Word) : (s.setIndex i).stack = s.stack := rfl
@[simp] theorem setIndex_sp (i : Word) : (s.setIndex i).sp = s.sp := rfl
@[simp] theorem setIndex_mem (i : Word) : (s.setIndex i).mem = s.mem := rfl
@[simp] theorem setIndex_fb (i : Word) : (s.setIndex i).fb = s.fb := rfl
@[simp] theorem setIndex_dt (i : Word) : (s.setIndex i).dt = s.dt := rfl
@[simp] theorem setIndex_st (i : Word) : (s.setIndex i).st = s.st := rfl
@[simp] theorem setIndex_redraw (i : Word) : (s.setIndex i).redraw = s.redraw := rfl
@[simp] theorem setIndex_run (i : Word) : (s.setIndex i).run = s.run := rfl
@[simp] theorem setIndex_haltCause (i : Word) : (s.setIndex i).haltCause = s.haltCause := rfl
@[simp] theorem setIndex_keys (i : Word) : (s.setIndex i).keys = s.keys := rfl
@[simp] theorem setIndex_stopReq (i : Word) : (s.setIndex i).stopReq = s.stopReq := rfl
@[simp] theorem setIndex_rnd (i : Word) : (s.setIndex i).rnd = s.rnd := rfl
@[simp] theorem setIndex_schedule (i : Word) : (s.setIndex i).schedule = s.schedule := rfl
@[simp] theorem setIndex_draws (i : Word) : (s.setIndex i).draws = s.draws := rfl

/-! `State.setDt` -/

@[simp] theorem setDt_v (b : Byte) : (s.setDt b).v = s.v := rfl
@[simp] theorem setDt_reg (b : Byte) (r : Reg) : (s.setDt b).reg r = s.reg r := rfl
@[simp] theorem setDt_pc (b : Byte) : (s.setDt b).pc = s.pc := rfl
@[simp] theorem setDt_index (b : Byte) : (s.setDt b).index = s.index := rfl
@[simp] theorem setDt_stack (b : Byte) : (s.setDt b).stack = s.stack := rfl
@[simp] theorem setDt_sp (b : Byte) : (s.setDt b).sp = s.sp := rfl
@[simp] theorem setDt_mem (b : Byte) : (s.setDt b).mem = s.mem := rfl
@[simp] theorem setDt_fb (b : Byte) : (s.setDt b).fb = s.fb := rfl
@[simp] theorem setDt_dt (b : Byte) : (s.setDt b).dt = b := rfl
@[simp] theorem setDt_st (b : Byte) : (s.setDt b).st = s.st := rfl
@[simp] theorem setDt_redraw (b : Byte) : (s.setDt b).redraw = s.redraw := rfl
@[simp] theorem setDt_run (b : Byte) : (s.setDt b).run = s.run := rfl
@[simp] theorem setDt_haltCause (b : Byte) : (s.setDt b).haltCause = s.haltCause := rfl
@[simp] theorem setDt_keys (b : Byte) : (s.setDt b).keys = s.keys := rfl
@[simp] theorem setDt_stopReq (b : Byte) : (s.setDt b).stopReq = s.stopReq := rfl
@[simp] theorem setDt_rnd (b : Byte) : (s.setDt b).rnd = s.rnd := rfl
@[simp] theorem setDt_schedule (b : Byte) : (s.setDt b).schedule = s.schedule := rfl
@[simp] theorem setDt_draws (b : Byte) : (s.setDt b).draws = s.draws := rfl

/-! `State.setSt` -/

@[simp] theorem setSt_v (b : Byte) : (s.setSt b).v = s.v := rfl
@[simp] theorem setSt_reg (b : Byte) (r : Reg) : (s.setSt b).reg r = s.reg r := rfl
@[simp] theorem setSt_pc (b : Byte) : (s.setSt b).pc = s.pc := rfl
@[simp] theorem setSt_index (b : Byte) : (s.setSt b).index = s.index := rfl
@[simp] theorem setSt_stack (b : Byte) : (s.setSt b).stack = s.stack := rfl
@[simp] theorem setSt_sp (b : Byte) : (s.setSt b).sp = s.sp := rfl
@[simp] theorem setSt_mem (b : Byte) : (s.setSt b).mem = s.mem := rfl
@[simp] theorem setSt_fb (b : Byte) : (s.setSt b).fb = s.fb := rfl
@[simp] theorem setSt_dt (b : Byte) : (s.setSt b).dt = s.dt := rfl
@[simp] theorem setSt_st (b : Byte) : (s.setSt b).st = b := rfl
@[simp] theorem setSt_redraw (b : Byte) : (s.setSt b).redraw = s.redraw := rfl
@[simp] theorem setSt_run (b : Byte) : (s.setSt b).run = s.run := rfl
@[simp] theorem setSt_haltCause (b : Byte) : (s.setSt b).haltCause = s.haltCause := rfl
@[simp] theorem setSt_keys (b : Byte) : (s.setSt b).keys = s.keys := rfl
@[simp] theorem setSt_stopReq (b : Byte) : (s.setSt b).stopReq = s.stopReq := rfl
@[simp] theorem setSt_rnd (b : Byte) : (s.setSt b).rnd = s.rnd := rfl
@[simp] theorem setSt_schedule (b : Byte) : (s.setSt b).schedule = s.schedule := rfl
@[simp] theorem setSt_draws (b : Byte) : (s.setSt b).draws = s.draws := rfl

/-! `State.setMem` -/

@[simp] theorem setMem_v (m : Memory) : (s.setMem m).v = s.v := rfl
@[simp] theorem setMem_reg (m : Memory) (r : Reg) : (s.setMem m).reg r = s.reg r := rfl
@[simp] theorem setMem_pc (m : Memory) : (s.setMem m).pc = s.pc := rfl
@[simp] theorem setMem_index (m : Memory) : (s.setMem m).index = s.index := rfl
@[simp] theorem setMem_stack (m : Memory) : (s.setMem m).stack = s.stack := rfl
@[simp] theorem setMem_sp (m : Memory) : (s.setMem m).sp = s.sp := rfl
@[simp] theorem setMem_mem (m : Memory) : (s.setMem m).mem = m := rfl
@[simp] theorem setMem_fb (m : Memory) : (s.setMem m).fb = s.fb := rfl
@[simp] theorem setMem_dt (m : Memory) : (s.setMem m).dt = s.dt := rfl
@[simp] theorem setMem_st (m : Memory) : (s.setMem m).st = s.st := rfl
@[simp] theorem setMem_redraw (m : Memory) : (s.setMem m).redraw = s.redraw := rfl
@[simp] theorem setMem_run (m : Memory) : (s.setMem m).run = s.run := rfl
@[simp] theorem setMem_haltCause (m : Memory) : (s.setMem m).haltCause = s.haltCause := rfl
@[simp] theorem setMem_keys (m : Memory) : (s.setMem m).keys = s.keys := rfl
@[simp] theorem setMem_stopReq (m : Memory) : (s.setMem m).stopReq = s.stopReq := rfl
@[simp] theorem setMem_rnd (m : Memory) : (s.setMem m).rnd = s.rnd := rfl
@[simp] theorem setMem_schedule (m : Memory) : (s.setMem m).schedule = s.schedule := rfl
@[simp] theorem setMem_draws (m : Memory) : (s.setMem m).draws = s.draws := rfl

/-! `State.showFrame` -/

@[simp] theorem showFrame_v (fb : FrameBuffer) : (s.showFrame fb).v = s.v := rfl
@[simp] theorem showFrame_reg (fb : FrameBuffer) (r : Reg) : (s.showFrame fb).reg r = s.reg r := rfl
@[simp] theorem showFrame_pc (fb : FrameBuffer) : (s.showFrame fb).pc = s.pc := rfl
@[simp] theorem showFrame_index (fb : FrameBuffer) : (s.showFrame fb).index = s.index := rfl
@[simp] theorem showFrame_stack (fb : FrameBuffer) : (s.showFrame fb).stack = s.stack := rfl
@[simp] theorem showFrame_sp (fb : FrameBuffer) : (s.showFrame fb).sp = s.sp := rfl
@[simp] theorem showFrame_mem (fb : FrameBuffer) : (s.showFrame fb).mem = s.mem := rfl
@[simp] theorem showFrame_fb (fb : FrameBuffer) : (s.showFrame fb).fb = fb := rfl
@[simp] theorem showFrame_dt (fb : FrameBuffer) : (s.showFrame fb).dt = s.dt := rfl
@[simp] theorem showFrame_st (fb : FrameBuffer) : (s.showFrame fb).st = s.st := rfl
@[simp] theorem showFrame_redraw (fb : FrameBuffer) : (s.showFrame fb).redraw = true := rfl
@[simp] theorem showFrame_run (fb : FrameBuffer) : (s.showFrame fb).run = s.run := rfl
@[simp] theorem showFrame_haltCause (fb : FrameBuffer) : (s.showFrame fb).haltCause = s.haltCause := rfl
@[simp] theorem showFrame_keys (fb : FrameBuffer) : (s.showFrame fb).keys = s.keys := rfl
@[simp] theorem showFrame_stopReq (fb : FrameBuffer) : (s.showFrame fb).stopReq = s.stopReq := rfl
@[simp] theorem showFrame_rnd (fb : FrameBuffer) : (s.showFrame fb).rnd = s.rnd := rfl
@[simp] theorem showFrame_schedule (fb : FrameBuffer) : (s.showFrame fb).schedule = s.schedule := rfl
@[simp] theorem showFrame_draws (fb : FrameBuffer) : (s.showFrame fb).draws = s.draws := rfl

/-! `State.halt` -/

@[simp] theorem halt_v (c : HaltCause) : (s.halt c).v = s.v := rfl
@[simp] theorem halt_reg (c : HaltCause) (r : Reg) : (s.halt c).reg r = s.reg r := rfl
@[simp] theorem halt_pc (c : HaltCause) : (s.halt c).pc = s.pc := rfl
@[simp] theorem halt_index (c : HaltCause) : (s.halt c).index = s.index := rfl
@[simp] theorem halt_stack (c : HaltCause) : (s.halt c).stack = s.stack := rfl
@[simp] theorem halt_sp (c : HaltCause) : (s.halt c).sp = s.sp := rfl
@[simp] theorem halt_mem (c : HaltCause) : (s.halt c).mem = s.mem := rfl
@[simp] theorem halt_fb (c : HaltCause) : (s.halt c).fb = s.fb := rfl
@[simp] theorem halt_dt (c : HaltCause) : (s.halt c).dt = s.dt := rfl
@[simp] theorem halt_st (c : HaltCause) : (s.halt c).st = s.st := rfl
@[simp] theorem halt_redraw (c : HaltCause) : (s.halt c).redraw = s.redraw := rfl
@[simp] theorem halt_run (c : HaltCause) : (s.halt c).run = .halted := rfl
@[simp] theorem halt_haltCause (c : HaltCause) : (s.halt c).haltCause = c := rfl
@[simp] theorem halt_keys (c : HaltCause) : (s.halt c).keys = s.keys := rfl
@[simp] theorem halt_stopReq (c : HaltCause) : (s.halt c).stopReq = s.stopReq := rfl
@[simp] theorem halt_rnd (c : HaltCause) : (s.halt c).rnd = s.rnd := rfl
@[simp] theorem halt_schedule (c : HaltCause) : (s.halt c).schedule = s.schedule := rfl
@[simp] theorem halt_draws (c : HaltCause) : (s.halt c).draws = s.draws := rfl

/-! `State.advance` -/

@[simp] theorem advance_v : (s.advance).v = s.v := rfl
@[simp] theorem advance_reg (r : Reg) : (s.advance).reg r = s.reg r := rfl
@[simp] theorem advance_pc : (s.advance).pc = s.pc + 2 := rfl
@[simp] theorem advance_index : (s.advance).index = s.index := rfl
@[simp] theorem advance_stack : (s.advance).stack = s.stack := rfl
@[simp] theorem advance_sp : (s.advance).sp = s.sp := rfl
@[simp] theorem advance_mem : (s.advance).mem = s.mem := rfl
@[simp] theorem advance_fb : (s.advance).fb = s.fb := rfl
@[simp] theorem advance_dt : (s.advance).dt = s.dt := rfl
@[simp] theorem advance_st : (s.advance).st = s.st := rfl
@[simp] theorem advance_redraw : (s.advance).redraw = s.redraw := rfl
@[simp] theorem advance_run : (s.advance).run = s.run := rfl
@[simp] theorem advance_haltCause : (s.advance).haltCause = s.haltCause := rfl
@[simp] theorem advance_keys : (s.advance).keys = s.keys := rfl
@[simp] theorem advance_stopReq : (s.advance).stopReq = s.stopReq := rfl
@[simp] theorem advance_rnd : (s.advance).rnd = s.rnd := rfl
@[simp] theorem advance_schedule : (s.advance).schedule = s.schedule := rfl
@[simp] theorem advance_draws : (s.advance).draws = s.draws := rfl

/-! `State.sample` -/

@[simp] theorem sample_v (i : Inputs) : (s.sample i).v = s.v := rfl
@[simp] theorem sample_reg (i : Inputs) (r : Reg) : (s.sample i).reg r = s.reg r := rfl
@[simp] theorem sample_pc (i : Inputs) : (s.sample i).pc = s.pc := rfl
@[simp] theorem sample_index (i : Inputs) : (s.sample i).index = s.index := rfl
@[simp] theorem sample_stack (i : Inputs) : (s.sample i).stack = s.stack := rfl
@[simp] theorem sample_sp (i : Inputs) : (s.sample i).sp = s.sp := rfl
@[simp] theorem sample_mem (i : Inputs) : (s.sample i).mem = s.mem := rfl
@[simp] theorem sample_fb (i : Inputs) : (s.sample i).fb = s.fb := rfl
@[simp] theorem sample_dt (i : Inputs) : (s.sample i).dt = s.dt := rfl
@[simp] theorem sample_st (i : Inputs) : (s.sample i).st = s.st := rfl
@[simp] theorem sample_redraw (i : Inputs) : (s.sample i).redraw = s.redraw := rfl
@[simp] theorem sample_run (i : Inputs) : (s.sample i).run = s.run := rfl
@[simp] theorem sample_haltCause (i : Inputs) : (s.sample i).haltCause = s.haltCause := rfl
@[simp] theorem sample_keys (i : Inputs) : (s.sample i).keys = i.keys := rfl
@[simp] theorem sample_stopReq (i : Inputs) : (s.sample i).stopReq = i.stopReq := rfl
@[simp] theorem sample_rnd (i : Inputs) : (s.sample i).rnd = i.rnd := rfl
@[simp] theorem sample_schedule (i : Inputs) : (s.sample i).schedule = s.schedule := rfl
@[simp] theorem sample_draws (i : Inputs) : (s.sample i).draws = s.draws := rfl

/-! `State.tick` -/

@[simp] theorem tick_v : (s.tick).v = s.v := rfl
@[simp] theorem tick_reg (r : Reg) : (s.tick).reg r = s.reg r := rfl
@[simp] theorem tick_pc : (s.tick).pc = s.pc := rfl
@[simp] theorem tick_index : (s.tick).index = s.index := rfl
@[simp] theorem tick_stack : (s.tick).stack = s.stack := rfl
@[simp] theorem tick_sp : (s.tick).sp = s.sp := rfl
@[simp] theorem tick_mem : (s.tick).mem = s.mem := rfl
@[simp] theorem tick_fb : (s.tick).fb = s.fb := rfl
@[simp] theorem tick_dt : (s.tick).dt = countDown s.dt := rfl
@[simp] theorem tick_st : (s.tick).st = countDown s.st := rfl
@[simp] theorem tick_redraw : (s.tick).redraw = s.redraw := rfl
@[simp] theorem tick_run : (s.tick).run = s.run := rfl
@[simp] theorem tick_haltCause : (s.tick).haltCause = s.haltCause := rfl
@[simp] theorem tick_keys : (s.tick).keys = s.keys := rfl
@[simp] theorem tick_stopReq : (s.tick).stopReq = s.stopReq := rfl
@[simp] theorem tick_rnd : (s.tick).rnd = s.rnd := rfl
@[simp] theorem tick_schedule : (s.tick).schedule = s.schedule := rfl
@[simp] theorem tick_draws : (s.tick).draws = s.draws := rfl

/-! `State.frameAck` -/

@[simp] theorem frameAck_v : (s.frameAck).v = s.v := rfl
@[simp] theorem frameAck_reg (r : Reg) : (s.frameAck).reg r = s.reg r := rfl
@[simp] theorem frameAck_pc : (s.frameAck).pc = s.pc := rfl
@[simp] theorem frameAck_index : (s.frameAck).index = s.index := rfl
@[simp] theorem frameAck_stack : (s.frameAck).stack = s.stack := rfl
@[simp] theorem frameAck_sp : (s.frameAck).sp = s.sp := rfl
@[simp] theorem frameAck_mem : (s.frameAck).mem = s.mem := rfl
@[simp] theorem frameAck_fb : (s.frameAck).fb = s.fb := rfl
@[simp] theorem frameAck_dt : (s.frameAck).dt = s.dt := rfl
@[simp] theorem frameAck_st : (s.frameAck).st = s.st := rfl
@[simp] theorem frameAck_redraw : (s.frameAck).redraw = false := rfl
@[simp] theorem frameAck_run : (s.frameAck).run = s.run := rfl
@[simp] theorem frameAck_haltCause : (s.frameAck).haltCause = s.haltCause := rfl
@[simp] theorem frameAck_keys : (s.frameAck).keys = s.keys := rfl
@[simp] theorem frameAck_stopReq : (s.frameAck).stopReq = s.stopReq := rfl
@[simp] theorem frameAck_rnd : (s.frameAck).rnd = s.rnd := rfl
@[simp] theorem frameAck_schedule : (s.frameAck).schedule = s.schedule := rfl
@[simp] theorem frameAck_draws : (s.frameAck).draws = s.draws := rfl

/-! `State.hideOutputs` -/

@[simp] theorem hideOutputs_v : (s.hideOutputs).v = s.v := rfl
@[simp] theorem hideOutputs_reg (r : Reg) : (s.hideOutputs).reg r = s.reg r := rfl
@[simp] theorem hideOutputs_pc : (s.hideOutputs).pc = s.pc := rfl
@[simp] theorem hideOutputs_index : (s.hideOutputs).index = s.index := rfl
@[simp] theorem hideOutputs_stack : (s.hideOutputs).stack = s.stack := rfl
@[simp] theorem hideOutputs_sp : (s.hideOutputs).sp = s.sp := rfl
@[simp] theorem hideOutputs_mem : (s.hideOutputs).mem = s.mem := rfl
@[simp] theorem hideOutputs_fb : (s.hideOutputs).fb = s.fb := rfl
@[simp] theorem hideOutputs_dt : (s.hideOutputs).dt = s.dt := rfl
@[simp] theorem hideOutputs_st : (s.hideOutputs).st = 0 := rfl
@[simp] theorem hideOutputs_redraw : (s.hideOutputs).redraw = false := rfl
@[simp] theorem hideOutputs_run : (s.hideOutputs).run = s.run := rfl
@[simp] theorem hideOutputs_haltCause : (s.hideOutputs).haltCause = s.haltCause := rfl
@[simp] theorem hideOutputs_keys : (s.hideOutputs).keys = s.keys := rfl
@[simp] theorem hideOutputs_stopReq : (s.hideOutputs).stopReq = s.stopReq := rfl
@[simp] theorem hideOutputs_rnd : (s.hideOutputs).rnd = s.rnd := rfl
@[simp] theorem hideOutputs_schedule : (s.hideOutputs).schedule = s.schedule := rfl
@[simp] theorem hideOutputs_draws : (s.hideOutputs).draws = s.draws := rfl

/-! Registers -/

/-- `V[y]` after a write of `V[x]`. -/
@[simp] theorem setReg_reg (x y : Reg) (b : Byte) : (s.setReg x b).reg y = if x = y then b else s.reg y := by
  simp only [State.reg, State.setReg, Vector.getElem_set, Fin.ext_iff]

/-- `V[y]` after a write of the flag. -/
@[simp] theorem setFlag_reg (f : Bool) (y : Reg) : (s.setFlag f).reg y = if vf = y then flagByte f else s.reg y :=
  setReg_reg s vf y _

/-- The flag byte as a number. -/
@[simp] theorem flagByte_toNat (f : Bool) : (flagByte f).toNat = f.toNat := by cases f <;> rfl

/-! Reset -/

variable (image : List Byte)

/-- Reset builds every field of the core anew and leaves the host's (70_reset_and_hazards R230). -/
theorem resetTo_eq : s.resetTo image =
    { State.reset with
      mem := imageCells Config.progBase image, keys := s.keys, stopReq := s.stopReq, rnd := s.rnd,
      schedule := s.schedule, draws := s.draws } := rfl
@[simp] theorem resetTo_reg (r : Reg) : (s.resetTo image).reg r = 0 := by
  simp [State.resetTo, State.reg, State.reset]
@[simp] theorem resetTo_mem : (s.resetTo image).mem = imageCells Config.progBase image := rfl
@[simp] theorem resetTo_run : (s.resetTo image).run = .running := rfl
@[simp] theorem resetTo_haltCause : (s.resetTo image).haltCause = .none := rfl
@[simp] theorem resetTo_redraw : (s.resetTo image).redraw = false := rfl
@[simp] theorem resetTo_dt : (s.resetTo image).dt = 0 := rfl
@[simp] theorem resetTo_st : (s.resetTo image).st = 0 := rfl

end Sys2Proof.Machine
end

