-- ==== Sys2Proof/Laws/Ops.lean ====
section
/-! SUPPORT. Everything each shared operation can do, said once: the stack, skips, halting, block accesses, the fetch, flag-writing
results, the operand forms. -/

namespace Sys2Proof.Machine

variable {s : State}

/-! What may change -/

/-- Nothing has changed from a state to itself. -/
theorem sameExcept_rfl (f : Touched) (s : State) : SameExcept f s s := by constructor <;> intros <;> rfl

/-- A fatal condition enters Halted and changes nothing else (60_exceptions R209). -/
theorem haltedBy_halt (c : HaltCause) (s : State) : HaltedBy c s (s.halt c) :=
  ⟨rfl, rfl, by constructor <;> intros <;> first | rfl | contradiction⟩

theorem raise_eq (c : HaltCause) (s : State) : raise c s = .next (s.halt c) := rfl

theorem setPc_same (s : State) (t : Addr) : SameExcept { pc := true } s (s.setPc t) := by
  constructor <;> intros <;> first | rfl | contradiction

theorem setReg_same (s : State) (x : Reg) (b : Byte) : SameExcept { regs := [x] } s (s.setReg x b) := by
  constructor <;> intros <;> first | rfl | skip
  rename_i r hr
  simp only [List.mem_singleton] at hr
  simp [Ne.symm hr]

theorem setMem_same {s : State} {m : Memory} {as : List Nat} (h : ∀ a, a ∉ as → m.read? a = s.mem.read? a) :
    SameExcept { mem := as } s (s.setMem m) := by
  constructor <;> intros <;> first | rfl | skip
  exact h _ ‹_›

/-! The call stack (10_state R25) -/

/-- A push on a stack that is not full. -/
theorem push?_notFull (h : s.sp.val < 16) (r : Addr) :
    ∃ t, s.push? r = some t ∧ t.sp.val = s.sp.val + 1 ∧ t.stack[s.sp.val] = r ∧
      SameExcept { stack := [s.sp.val], sp := true } s t := by
  refine ⟨_, dif_pos h, rfl, by simp, ?_⟩
  constructor <;> intros <;> first | rfl | contradiction | skip
  rename_i k hk
  simp only [List.mem_singleton] at hk
  simp [Ne.symm hk]

theorem push?_full (h : s.sp.val = 16) (r : Addr) : s.push? r = none := dif_neg (by omega)

/-- A pop of a stack that is not empty; the entry is not erased. -/
theorem pop?_notEmpty (h : 0 < s.sp.val) :
    ∃ t, s.pop? = some (s.stack[s.sp.val - 1], t) ∧ t.sp.val = s.sp.val - 1 ∧ SameExcept { sp := true } s t := by
  refine ⟨_, dif_pos h, rfl, ?_⟩
  constructor <;> intros <;> first | rfl | contradiction

theorem pop?_empty (h : s.sp.val = 0) : s.pop? = none := dif_neg (by omega)

/-! Skips (40_cycle_control_flow R109) -/

/-- A skip moves `pc` by 2 or not at all and changes nothing else. -/
theorem skipIf_spec (c : Bool) (s : State) :
    ∃ t, skipIf c s = .next t ∧ t.pc = (if c then s.pc + 2 else s.pc) ∧ SameExcept { pc := true } s t := by
  cases c
  · exact ⟨s, rfl, rfl, sameExcept_rfl _ s⟩
  · exact ⟨_, rfl, rfl, setPc_same s _⟩

/-! The range check and block accesses (20_memory R52) -/

theorem dataInRange_iff (n : Nat) : s.dataInRange n = true ↔ n = 0 ∨ s.index.toNat + n ≤ Config.memSize := by
  rw [State.dataInRange, Bool.or_eq_true, beq_iff_eq, decide_eq_true_iff, State.dataAddress]
  simp only [Config.memSize]
  omega

/-- A checked block read goes on with the bytes in order. -/
theorem loadThen_eq {n : Nat} (h : s.dataInRange n = true) (k : List Byte → Result) :
    loadThen s (s.dataAddress 0) n k = k ((List.range n).map fun j => s.mem.lookup (s.dataAddress j)) := by
  rcases (dataInRange_iff n).1 h with rfl | h
  · simp [loadThen, Memory.readBytes?]
  · simp only [loadThen, State.dataAddress, Nat.add_zero]
    rw [readBytes?_eq h]

theorem mem_dataAddresses {n a : Nat} : a ∈ dataAddresses s n ↔ s.index.toNat ≤ a ∧ a < s.index.toNat + n := by
  simp only [dataAddresses, State.dataAddress, List.mem_map, List.mem_range]
  constructor
  · rintro ⟨k, hk, rfl⟩
    omega
  · exact fun ⟨h₁, h₂⟩ => ⟨a - s.index.toNat, by omega, by omega⟩

/-- A checked block write completes, puts every byte where it belongs and changes nothing else. -/
theorem storeBytes_spec {bs : List Byte} (h : s.dataInRange bs.length = true) :
    ∃ t, storeBytes s (s.dataAddress 0) bs = .next t ∧ SameExcept { mem := dataAddresses s bs.length } s t ∧
      (s.mem.wf = true → t.mem.wf = true ∧ ∀ k (hk : k < bs.length), t.mem.read? (s.dataAddress k) = some bs[k]) := by
  rcases (dataInRange_iff _).1 h with h₀ | h₀
  · obtain rfl := List.length_eq_zero_iff.1 h₀
    exact ⟨s, rfl, sameExcept_rfl _ s, fun hwf => ⟨hwf, fun k hk => by simp at hk⟩⟩
  · obtain ⟨m, hm, hout, hin⟩ := writeBytes?_spec (m := s.mem) h₀
    refine ⟨s.setMem m, by simp only [storeBytes, State.dataAddress, Nat.add_zero, hm], setMem_same fun a ha => ?_, ?_⟩
    · rw [mem_dataAddresses] at ha
      simp only [Memory.read?, hout a (by omega)]
    · exact fun hwf => ⟨wf_writeBytes? hwf hm, fun k hk => by
        rw [setMem_mem, State.dataAddress, read?_lt (by omega), hin hwf k hk]⟩

/-! The fetch (20_memory R63) -/

/-- At every `pc` but 0xFFF the fetch reads the byte at `pc` as the high byte and the next as the low byte. -/
theorem fetch?_eq (h : s.pc ≠ 0xFFF#12) :
    s.fetch? = some (wordOfBytes (s.mem.lookup s.pc.toNat) (s.mem.lookup (s.pc.toNat + 1))) := by
  have hpc : s.pc.toNat + 2 ≤ Config.memSize := by
    have := s.pc.isLt
    have : s.pc.toNat ≠ 0xFFF := fun e => h (BitVec.eq_of_toNat_eq e)
    simp only [Config.memSize]
    omega
  rw [State.fetch?, readBytes?_eq hpc]
  rfl

/-! Results with a flag (41_alu R120) -/

/-- A result and its flag: the flag is what `VF` holds, also when the destination is `VF`; nothing else changes. -/
theorem writeResultFlag_spec (x : Reg) (r : Byte) (f : Bool) (s : State) :
    ∃ t, writeResultFlag x r f s = .next t ∧ (x ≠ vf → t.reg x = r) ∧ t.reg vf = flagByte f ∧
      SameExcept { regs := [x, vf] } s t := by
  refine ⟨_, rfl, fun h => by simp [h.symm], by simp, ?_⟩
  constructor <;> intros <;> first | rfl | skip
  rename_i y hy
  simp only [List.mem_cons, List.not_mem_nil, or_false, not_or] at hy
  simp [Ne.symm hy.1, Ne.symm hy.2]

/-! Registers from a list of bytes (42_index_memory R145) -/

/-- Writing bytes to registers from number `i` up changes `v` only, and there what the list covers. -/
theorem setRegsFrom_spec (s : State) (i : Nat) (bs : List Byte) (h : i + bs.length ≤ 16) :
    (∀ r : Reg, (s.setRegsFrom i bs).reg r = if hr : i ≤ r.val ∧ r.val < i + bs.length then bs[r.val - i] else s.reg r) ∧
      ∃ v, s.setRegsFrom i bs = { s with v := v } := by
  induction bs generalizing s i with
  | nil => exact ⟨fun r => by simp [State.setRegsFrom], s.v, rfl⟩
  | cons b bs ih =>
    simp only [List.length_cons] at h ⊢
    have hi : i < 16 := by omega
    obtain ⟨h₁, v, h₂⟩ := ih (s.setReg ⟨i, hi⟩ b) (i + 1) (by omega)
    simp only [State.setRegsFrom, dif_pos hi]
    refine ⟨fun r => ?_, v, h₂.trans rfl⟩
    rw [h₁, setReg_reg]
    by_cases hr : r.val = i
    · have : (⟨i, hi⟩ : Reg) = r := Fin.ext hr.symm
      rw [dif_neg (by omega), if_pos this, dif_pos (by omega)]
      simp [hr]
    · have : (⟨i, hi⟩ : Reg) ≠ r := fun e => hr (congrArg Fin.val e).symm
      rw [if_neg this]
      by_cases hr' : i + 1 ≤ r.val ∧ r.val < i + 1 + bs.length
      · rw [dif_pos hr', dif_pos (by omega)]
        obtain ⟨k, hk⟩ : ∃ k, r.val - i = k + 1 := ⟨r.val - i - 1, by omega⟩
        have hk' : r.val - (i + 1) = k := by omega
        simp only [hk, hk', List.getElem_cons_succ]
      · rw [dif_neg hr', dif_neg (by omega)]

/-! Timers and keys -/

theorem countDown_toNat (b : Byte) : (countDown b).toNat = b.toNat - 1 := by
  unfold countDown
  split
  · simp_all
  · rename_i h
    have := b.isLt
    have : b.toNat ≠ 0 := fun e => h (BitVec.eq_of_toNat_eq e)
    rw [BitVec.toNat_sub]
    simp
    omega

/-- `firstDown` answers the least key that is down (44_timers_keys R174). -/
theorem firstDown_eq_some {k : Nat} :
    s.firstDown = some k ↔ k < 16 ∧ s.isDown k = true ∧ ∀ j, j < k → s.isDown j = false := by
  simp only [State.firstDown, List.find?_range_eq_some, Bool.not_eq_true', List.mem_range]
  tauto

/-- `firstDown` answers none exactly when no key is down. -/
theorem firstDown_eq_none : s.firstDown = none ↔ s.keys = 0 := by
  simp only [State.firstDown, State.isDown, List.find?_eq_none, List.mem_range, Bool.not_eq_true]
  constructor
  · exact fun h => BitVec.eq_of_getLsbD_eq fun i hi => by simpa using h i hi
  · rintro h k -
    simp [h]

end Sys2Proof.Machine
end

