-- ==== Sys2Proof/Laws/PerInstr.lean ====
section
/-! SUPPORT. One family of facts per instruction, about its syntax: every operand of an instruction stands in its own field of the
encoded word (30_encoding R71, R72). -/

namespace Sys2Proof.Laws

/-- The operand in field `x`. -/
def operandX : Instr → Option Reg
  | .seVxNn x _ | .sneVxNn x _ | .ldVxNn x _ | .addVxNn x _ | .rndVxNn x _ | .seVxVy x _ | .sneVxVy x _ | .ldVxVy x _
  | .orVxVy x _ | .andVxVy x _ | .xorVxVy x _ | .addVxVy x _ | .subVxVy x _ | .shrVxVy x _ | .subnVxVy x _ | .shlVxVy x _
  | .drw x _ _ | .skp x | .sknp x | .ldVxDt x | .ldVxK x | .ldDtVx x | .ldStVx x | .addIVx x | .ldFVx x | .ldBVx x
  | .ldMemVx x | .ldVxMem x => some x
  | .cls | .ret | .jp _ | .call _ | .ldINnn _ | .undef _ => none

/-- The operand in field `y`. -/
def operandY : Instr → Option Reg
  | .seVxVy _ y | .sneVxVy _ y | .ldVxVy _ y | .orVxVy _ y | .andVxVy _ y | .xorVxVy _ y | .addVxVy _ y | .subVxVy _ y
  | .shrVxVy _ y | .subnVxVy _ y | .shlVxVy _ y | .drw _ y _ => some y
  | _ => none

/-- The operand in field `n`. -/
def operandN : Instr → Option (Fin 16)
  | .drw _ _ n => some n
  | _ => none

/-- The operand in field `nn`. -/
def operandNN : Instr → Option Byte
  | .seVxNn _ nn | .sneVxNn _ nn | .ldVxNn _ nn | .addVxNn _ nn | .rndVxNn _ nn => some nn
  | _ => none

/-- The operand in field `nnn`. -/
def operandNNN : Instr → Option Addr
  | .jp nnn | .call nnn | .ldINnn nnn => some nnn
  | _ => none

/-- Every operand the instruction has is what its field of the encoded word holds. -/
def OperandFields.Statement (i : Instr) : Prop :=
  (∀ x, operandX i = some x → fieldX (encode i) = x) ∧ (∀ y, operandY i = some y → fieldY (encode i) = y) ∧
    (∀ n, operandN i = some n → fieldN (encode i) = n) ∧ (∀ nn, operandNN i = some nn → fieldNN (encode i) = nn) ∧
    ∀ nnn, operandNNN i = some nnn → fieldNNN (encode i) = nnn

variable (x y : Reg) (n : Fin 16) (nn : Byte) (nnn : Addr) (w : Word)

theorem OperandFields.cls : OperandFields.Statement .cls := by
  refine ⟨?_, ?_, ?_, ?_, ?_⟩ <;> rintro _ ⟨⟩

theorem OperandFields.ret : OperandFields.Statement .ret := by
  refine ⟨?_, ?_, ?_, ?_, ?_⟩ <;> rintro _ ⟨⟩

theorem OperandFields.jp : OperandFields.Statement (.jp nnn) := by
  refine ⟨?_, ?_, ?_, ?_, ?_⟩ <;> rintro _ ⟨⟩
  all_goals simp [encode]

theorem OperandFields.call : OperandFields.Statement (.call nnn) := by
  refine ⟨?_, ?_, ?_, ?_, ?_⟩ <;> rintro _ ⟨⟩
  all_goals simp [encode]

theorem OperandFields.seVxNn : OperandFields.Statement (.seVxNn x nn) := by
  refine ⟨?_, ?_, ?_, ?_, ?_⟩ <;> rintro _ ⟨⟩
  all_goals simp [encode]

theorem OperandFields.sneVxNn : OperandFields.Statement (.sneVxNn x nn) := by
  refine ⟨?_, ?_, ?_, ?_, ?_⟩ <;> rintro _ ⟨⟩
  all_goals simp [encode]

theorem OperandFields.seVxVy : OperandFields.Statement (.seVxVy x y) := by
  refine ⟨?_, ?_, ?_, ?_, ?_⟩ <;> rintro _ ⟨⟩
  all_goals simp [encode]

theorem OperandFields.ldVxNn : OperandFields.Statement (.ldVxNn x nn) := by
  refine ⟨?_, ?_, ?_, ?_, ?_⟩ <;> rintro _ ⟨⟩
  all_goals simp [encode]

theorem OperandFields.addVxNn : OperandFields.Statement (.addVxNn x nn) := by
  refine ⟨?_, ?_, ?_, ?_, ?_⟩ <;> rintro _ ⟨⟩
  all_goals simp [encode]

theorem OperandFields.ldVxVy : OperandFields.Statement (.ldVxVy x y) := by
  refine ⟨?_, ?_, ?_, ?_, ?_⟩ <;> rintro _ ⟨⟩
  all_goals simp [encode]

theorem OperandFields.orVxVy : OperandFields.Statement (.orVxVy x y) := by
  refine ⟨?_, ?_, ?_, ?_, ?_⟩ <;> rintro _ ⟨⟩
  all_goals simp [encode]

theorem OperandFields.andVxVy : OperandFields.Statement (.andVxVy x y) := by
  refine ⟨?_, ?_, ?_, ?_, ?_⟩ <;> rintro _ ⟨⟩
  all_goals simp [encode]

theorem OperandFields.xorVxVy : OperandFields.Statement (.xorVxVy x y) := by
  refine ⟨?_, ?_, ?_, ?_, ?_⟩ <;> rintro _ ⟨⟩
  all_goals simp [encode]

theorem OperandFields.addVxVy : OperandFields.Statement (.addVxVy x y) := by
  refine ⟨?_, ?_, ?_, ?_, ?_⟩ <;> rintro _ ⟨⟩
  all_goals simp [encode]

theorem OperandFields.subVxVy : OperandFields.Statement (.subVxVy x y) := by
  refine ⟨?_, ?_, ?_, ?_, ?_⟩ <;> rintro _ ⟨⟩
  all_goals simp [encode]

theorem OperandFields.shrVxVy : OperandFields.Statement (.shrVxVy x y) := by
  refine ⟨?_, ?_, ?_, ?_, ?_⟩ <;> rintro _ ⟨⟩
  all_goals simp [encode]

theorem OperandFields.subnVxVy : OperandFields.Statement (.subnVxVy x y) := by
  refine ⟨?_, ?_, ?_, ?_, ?_⟩ <;> rintro _ ⟨⟩
  all_goals simp [encode]

theorem OperandFields.shlVxVy : OperandFields.Statement (.shlVxVy x y) := by
  refine ⟨?_, ?_, ?_, ?_, ?_⟩ <;> rintro _ ⟨⟩
  all_goals simp [encode]

theorem OperandFields.sneVxVy : OperandFields.Statement (.sneVxVy x y) := by
  refine ⟨?_, ?_, ?_, ?_, ?_⟩ <;> rintro _ ⟨⟩
  all_goals simp [encode]

theorem OperandFields.ldINnn : OperandFields.Statement (.ldINnn nnn) := by
  refine ⟨?_, ?_, ?_, ?_, ?_⟩ <;> rintro _ ⟨⟩
  all_goals simp [encode]

theorem OperandFields.rndVxNn : OperandFields.Statement (.rndVxNn x nn) := by
  refine ⟨?_, ?_, ?_, ?_, ?_⟩ <;> rintro _ ⟨⟩
  all_goals simp [encode]

theorem OperandFields.drw : OperandFields.Statement (.drw x y n) := by
  refine ⟨?_, ?_, ?_, ?_, ?_⟩ <;> rintro _ ⟨⟩
  · exact fieldX_formatXYN ..
  · exact fieldY_formatXYN ..
  · exact Fin.ext (fieldN_formatXYN ..)

theorem OperandFields.skp : OperandFields.Statement (.skp x) := by
  refine ⟨?_, ?_, ?_, ?_, ?_⟩ <;> rintro _ ⟨⟩
  all_goals simp [encode]

theorem OperandFields.sknp : OperandFields.Statement (.sknp x) := by
  refine ⟨?_, ?_, ?_, ?_, ?_⟩ <;> rintro _ ⟨⟩
  all_goals simp [encode]

theorem OperandFields.ldVxDt : OperandFields.Statement (.ldVxDt x) := by
  refine ⟨?_, ?_, ?_, ?_, ?_⟩ <;> rintro _ ⟨⟩
  all_goals simp [encode]

theorem OperandFields.ldVxK : OperandFields.Statement (.ldVxK x) := by
  refine ⟨?_, ?_, ?_, ?_, ?_⟩ <;> rintro _ ⟨⟩
  all_goals simp [encode]

theorem OperandFields.ldDtVx : OperandFields.Statement (.ldDtVx x) := by
  refine ⟨?_, ?_, ?_, ?_, ?_⟩ <;> rintro _ ⟨⟩
  all_goals simp [encode]

theorem OperandFields.ldStVx : OperandFields.Statement (.ldStVx x) := by
  refine ⟨?_, ?_, ?_, ?_, ?_⟩ <;> rintro _ ⟨⟩
  all_goals simp [encode]

theorem OperandFields.addIVx : OperandFields.Statement (.addIVx x) := by
  refine ⟨?_, ?_, ?_, ?_, ?_⟩ <;> rintro _ ⟨⟩
  all_goals simp [encode]

theorem OperandFields.ldFVx : OperandFields.Statement (.ldFVx x) := by
  refine ⟨?_, ?_, ?_, ?_, ?_⟩ <;> rintro _ ⟨⟩
  all_goals simp [encode]

theorem OperandFields.ldBVx : OperandFields.Statement (.ldBVx x) := by
  refine ⟨?_, ?_, ?_, ?_, ?_⟩ <;> rintro _ ⟨⟩
  all_goals simp [encode]

theorem OperandFields.ldMemVx : OperandFields.Statement (.ldMemVx x) := by
  refine ⟨?_, ?_, ?_, ?_, ?_⟩ <;> rintro _ ⟨⟩
  all_goals simp [encode]

theorem OperandFields.ldVxMem : OperandFields.Statement (.ldVxMem x) := by
  refine ⟨?_, ?_, ?_, ?_, ?_⟩ <;> rintro _ ⟨⟩
  all_goals simp [encode]

theorem OperandFields.undef : OperandFields.Statement (.undef w) := by
  refine ⟨?_, ?_, ?_, ?_, ?_⟩ <;> rintro _ ⟨⟩

end Sys2Proof.Laws
end

