-- ==== Sys2Proof/Laws/Step.lean ====
section
/-! SUPPORT. Everything a Cycle and a step can do, said once (40_cycle_control_flow R100, 60_exceptions R218). -/

namespace Sys2Proof.Machine

variable {s : State}

/-- The four ways a Cycle goes (R100): already Halted, the stop request, the fetch range, one instruction. No other. -/
theorem cycle_cases (s : State) :
    (s.run = .halted ∧ s.running? = none ∧ cycle s = .next s) ∨
    (s.run = .running ∧ s.stopReq = true ∧ s.running? = none ∧ cycle s = .next (s.halt .stopRequest)) ∨
    (s.run = .running ∧ s.stopReq = false ∧ s.pc = 0xFFF#12 ∧ s.running? = none ∧ cycle s = .next (s.halt .fetchRange)) ∨
    (s.run = .running ∧ s.stopReq = false ∧ s.pc ≠ 0xFFF#12 ∧
      ∃ i, s.running? = some i ∧
        i = decodeWord (wordOfBytes (s.mem.lookup s.pc.toNat) (s.mem.lookup (s.pc.toNat + 1))) ∧
        cycle s = exec i s.advance) := by
  unfold cycle State.running?
  cases hr : s.run
  · cases hq : s.stopReq
    · by_cases hpc : s.pc = 0xFFF#12
      · exact .inr (.inr (.inl (by simp [hpc, raise_eq])))
      · exact .inr (.inr (.inr (by simp [hpc, fetch?_eq hpc])))
    · exact .inr (.inl (by simp [raise_eq]))
  · exact .inl (by simp)

/-- The next operation of a schedule that is not empty. -/
theorem nextOp_cons {op : HostOp} {rest : List HostOp} (h : s.schedule = op :: rest) :
    nextOp s = (op, { s with schedule := rest }) := by
  simp only [nextOp, h]

/-- The next operation when the schedule has run out: a Cycle with a fresh free byte. -/
theorem nextOp_nil (h : s.schedule = []) :
    nextOp s = (.cycle { keys := s.keys, stopReq := s.stopReq, rnd := Config.freeRnd s.draws },
      { s with draws := s.draws + 1 }) := by
  simp only [nextOp, h]

/-- The state a step's operation works on is the state but for the schedule and the draw counter. -/
theorem nextOp_state (s : State) : ∃ sch d, (nextOp s).2 = { s with schedule := sch, draws := d } := by
  cases h : s.schedule with
  | nil => exact ⟨[], s.draws + 1, by rw [nextOp_nil h]; simp [← h]⟩
  | cons op rest => exact ⟨rest, s.draws, by rw [nextOp_cons h]⟩

/-- The five ways a step goes: Reset with a legal image, Reset with an image too long, a Cycle, Tick, FrameAck. -/
theorem step_cases (s : State) :
    (∃ image s', nextOp s = (.reset image, s') ∧ image.length ≤ Config.progMax ∧ step s = .next (s'.resetTo image)) ∨
    (∃ image s', nextOp s = (.reset image, s') ∧ Config.progMax < image.length ∧ step s = .refused .imageTooLong) ∨
    (∃ inputs s', nextOp s = (.cycle inputs, s') ∧ step s = cycle (s'.sample inputs)) ∨
    (∃ s', nextOp s = (.tick, s') ∧ step s = .next s'.tick) ∨
    (∃ s', nextOp s = (.frameAck, s') ∧ step s = .next s'.frameAck) := by
  rcases h : nextOp s with ⟨op, s'⟩
  cases op with
  | reset image =>
    by_cases hl : image.length ≤ Config.progMax
    · exact .inl ⟨image, s', rfl, hl, by simp only [step, h, hostOp, resetOp, if_pos hl]⟩
    · exact .inr (.inl ⟨image, s', rfl, by omega, by simp only [step, h, hostOp, resetOp, if_neg hl]⟩)
  | cycle inputs => exact .inr (.inr (.inl ⟨inputs, s', rfl, by simp only [step, h, hostOp]⟩))
  | tick => exact .inr (.inr (.inr (.inl ⟨s', rfl, by simp only [step, h, hostOp]⟩)))
  | frameAck => exact .inr (.inr (.inr (.inr ⟨s', rfl, by simp only [step, h, hostOp]⟩)))

/-- The word `withFetchWord` places is what the next step runs, from every state with canonical memory. -/
theorem step_readyToRun (hwf : s.mem.wf = true) (w : Word) :
    ∃ t, step (s.readyToRun w) = exec (decodeWord w) t ∧ t.v = s.v ∧ t.pc = (s.readyToRun w).pc + 2 := by
  have hpc : (s.readyToRun w).pc ≠ 0xFFF#12 := by
    simp only [State.readyToRun]
    split
    · decide
    · assumption
  have hlt : (s.readyToRun w).pc.toNat + 1 < Config.memSize := by
    have := (s.readyToRun w).pc.isLt
    have : (s.readyToRun w).pc.toNat ≠ 0xFFF := fun e => hpc (BitVec.eq_of_toNat_eq e)
    simp only [Config.memSize]
    omega
  have hmem : (s.readyToRun w).mem = s.mem.placeWord (s.readyToRun w).pc.toNat w := rfl
  have hhi : (s.readyToRun w).mem.lookup (s.readyToRun w).pc.toNat = w.extractLsb' 8 8 := by
    rw [hmem, Memory.placeWord, lookup_put_other (by omega), lookup_put_same hwf]
  have hlo : (s.readyToRun w).mem.lookup ((s.readyToRun w).pc.toNat + 1) = w.extractLsb' 0 8 := by
    rw [hmem, Memory.placeWord, lookup_put_same (wf_put (by omega) hwf)]
  let q : State := { s.readyToRun w with schedule := s.schedule, stopReq := false }
  have hstep : step (s.readyToRun w) = cycle q := rfl
  rcases cycle_cases q with ⟨h, -⟩ | ⟨-, h, -⟩ | ⟨-, -, h, -⟩ | ⟨-, -, -, i, -, hi, hc⟩
  · cases h
  · cases h
  · exact absurd h hpc
  · refine ⟨q.advance, ?_, rfl, rfl⟩
    rw [hstep, hc, hi]
    congr 1
    change decodeWord (wordOfBytes ((s.readyToRun w).mem.lookup (s.readyToRun w).pc.toNat)
      ((s.readyToRun w).mem.lookup ((s.readyToRun w).pc.toNat + 1))) = _
    rw [hhi, hlo, wordOfBytes_slices]

end Sys2Proof.Machine
end

