-- ==== Sys2Proof/Tests/Slice0.lean ====
section
/-! SUPPORT. The model's own tests: well-formedness, decoding of words written out from 30_encoding R72 and R75, one step on small
states with the results of 95_test_vectors, and a witness for every obligation that has hypotheses. -/

namespace Sys2Proof.Tests

open Sys2Proof.Machine

/-! Well-formedness -/

theorem test_wellFormed_refuses : (Instr.undef 0x00E0).wellFormed = false := by decide

theorem test_wellFormed_refuses_lastRow : (Instr.undef 0xFF65).wellFormed = false := by decide

theorem test_wellFormed_accepts : (Instr.undef 0xB300).wellFormed = true ∧ (Instr.drw 15 15 15).wellFormed = true := by decide

/-! Decoding: digits from the pattern column of R75, one word a constructor -/

theorem test_decode_cls : decodeWord 0x00E0 = .cls := by decide
theorem test_decode_ret : decodeWord 0x00EE = .ret := by decide
theorem test_decode_jp : decodeWord 0b0001101010111100 = .jp 0xABC := by decide
theorem test_decode_call : decodeWord 0x2345 = .call 0x345 := by decide
theorem test_decode_seVxNn : decodeWord 0x3A42 = .seVxNn 10 0x42 := by decide
theorem test_decode_sneVxNn : decodeWord 0b0100101001000010 = .sneVxNn 10 0x42 := by decide
theorem test_decode_seVxVy : decodeWord 0x5120 = .seVxVy 1 2 := by decide
theorem test_decode_ldVxNn : decodeWord 0b0110101001000010 = .ldVxNn 10 0x42 := by decide
theorem test_decode_addVxNn : decodeWord 0x73F0 = .addVxNn 3 0xF0 := by decide
theorem test_decode_ldVxVy : decodeWord 0x8120 = .ldVxVy 1 2 := by decide
theorem test_decode_orVxVy : decodeWord 0x8121 = .orVxVy 1 2 := by decide
theorem test_decode_andVxVy : decodeWord 0x8122 = .andVxVy 1 2 := by decide
theorem test_decode_xorVxVy : decodeWord 0x8123 = .xorVxVy 1 2 := by decide
theorem test_decode_addVxVy : decodeWord 0b1000000100100100 = .addVxVy 1 2 := by decide
theorem test_decode_subVxVy : decodeWord 0x8125 = .subVxVy 1 2 := by decide
theorem test_decode_shrVxVy : decodeWord 0x8126 = .shrVxVy 1 2 := by decide
theorem test_decode_subnVxVy : decodeWord 0x8127 = .subnVxVy 1 2 := by decide
theorem test_decode_shlVxVy : decodeWord 0x812E = .shlVxVy 1 2 := by decide
theorem test_decode_sneVxVy : decodeWord 0x9120 = .sneVxVy 1 2 := by decide
theorem test_decode_ldINnn : decodeWord 0b1010000001010000 = .ldINnn 0x050 := by decide
theorem test_decode_rndVxNn : decodeWord 0xC30F = .rndVxNn 3 0x0F := by decide
theorem test_decode_drw : decodeWord 0b1101000100100101 = .drw 1 2 5 := by decide
theorem test_decode_skp : decodeWord 0b1110001110011110 = .skp 3 := by decide
theorem test_decode_sknp : decodeWord 0xE3A1 = .sknp 3 := by decide
theorem test_decode_ldVxDt : decodeWord 0xF207 = .ldVxDt 2 := by decide
theorem test_decode_ldVxK : decodeWord 0xF50A = .ldVxK 5 := by decide
theorem test_decode_ldDtVx : decodeWord 0xF215 = .ldDtVx 2 := by decide
theorem test_decode_ldStVx : decodeWord 0xF218 = .ldStVx 2 := by decide
theorem test_decode_addIVx : decodeWord 0xF21E = .addIVx 2 := by decide
theorem test_decode_ldFVx : decodeWord 0xF429 = .ldFVx 4 := by decide
theorem test_decode_ldBVx : decodeWord 0xF533 = .ldBVx 5 := by decide
theorem test_decode_ldMemVx : decodeWord 0b1111001001010101 = .ldMemVx 2 := by decide
theorem test_decode_ldVxMem : decodeWord 0xF265 = .ldVxMem 2 := by decide

/-- U3, U4, U6, U8, U10, U11, U12, U15: one step off a pattern. -/
theorem test_decode_undef :
    [0x00E1, 0x01E0, 0x5121, 0x8128, 0x912E, 0xB300, 0xE19F, 0xF11F].all (fun w : Word => decodeWord w == .undef w) = true := by
  decide

/-- R70: `A050` lies in memory as the bytes A0 50. -/
theorem test_decode_bytes : decodeBytes [0xA0, 0x50, 0xD0] = .ok (.ldINnn 0x050, [0xD0]) := by decide

theorem test_decode_tooShort : decodeBytes [0xA0] = .error .truncated := by decide

/-! Steps: the vectors of 95_test_vectors -/

/-- The base state of 95_test_vectors with some registers. -/
def base (rs : List (Reg × Byte)) : State := rs.foldl (fun s r => s.setReg r.1 r.2) State.reset

/-- The base state with some registers, an index register and bytes of memory at it. -/
def indexed (rs : List (Reg × Byte)) (i : Word) (bs : List Byte := []) : State :=
  { base rs with index := i, mem := imageCells i.toNat bs }

/-- The state after one Cycle of a word at `pc`, with the ports' values as its inputs. -/
def after (s : State) (w : Nat) : Option State :=
  match step (s.withFetchWord 16 w) with
  | .next t => some t
  | _ => none

/-- Some registers after the Cycle. -/
def regsAfter (s : State) (w : Nat) (rs : List Reg) : Option (List Byte) := (after s w).map fun t => rs.map t.reg

/-- `pc` after the Cycle. -/
def pcAfter (s : State) (w : Nat) : Option Addr := (after s w).map (·.pc)

/-- Why the Cycle halted, and `pc` then. -/
def haltAfter (s : State) (w : Nat) : Option (HaltCause × Addr) := (after s w).map fun t => (t.haltCause, t.pc)

/-- `VF`, `redraw`, and the rows of the framebuffer from one row on, after the Cycle. -/
def frameAfter (s : State) (w row rows : Nat) : Option (Byte × Bool × List (BitVec 64)) :=
  (after s w).map fun t => (t.reg vf, t.redraw, (t.fb.toList.drop row).take rows)

/-- T1. -/
theorem test_jp : pcAfter State.reset 0x1ABC = some 0xABC := by decide

/-- T2: a jump to itself is a fixed point. -/
theorem test_jp_self : (after State.reset 0x1200).map (·.pc) = some 0x200 := by decide

/-- T5. -/
theorem test_call : (after { State.reset with sp := 15 } 0x2300).map (fun t => (t.pc, t.sp, t.stack[15])) = some (0x300, 16, 0x202) := by
  decide

/-- T6. -/
theorem test_call_full : haltAfter { State.reset with sp := 16 } 0x2300 = some (.stackOverflow, 0x202) := by decide

/-- T8. -/
theorem test_ret :
    (after { State.reset with pc := 0x300, sp := 1, stack := State.reset.stack.set 0 0x202 } 0x00EE).map (fun t => (t.pc, t.sp, t.stack[0]))
      = some (0x202, 0, 0x202) := by
  decide

/-- T9. -/
theorem test_ret_empty : haltAfter State.reset 0x00EE = some (.stackUnderflow, 0x202) := by decide

/-- T11, T12. -/
theorem test_seVxNn : pcAfter (base [(10, 0x42)]) 0x3A42 = some 0x204 ∧ pcAfter (base [(10, 0x43)]) 0x3A42 = some 0x202 := by decide

/-- T20, T21: a taken skip wraps, or lands on 0xFFF. -/
theorem test_seVxNn_wraps :
    pcAfter { State.reset with pc := 0xFFC } 0x3000 = some 0x000 ∧ pcAfter { State.reset with pc := 0xFFB } 0x3000 = some 0xFFF := by
  decide

/-- T13, T14. -/
theorem test_sneVxNn : pcAfter (base [(10, 0x42)]) 0x4A42 = some 0x202 ∧ pcAfter (base [(10, 0x00)]) 0x4A42 = some 0x204 := by decide

/-- T15, T16. -/
theorem test_seVxVy : pcAfter (base [(1, 7), (2, 7)]) 0x5120 = some 0x204 ∧ pcAfter (base [(1, 7), (2, 8)]) 0x5120 = some 0x202 := by
  decide

/-- T18, T19. -/
theorem test_sneVxVy : pcAfter (base [(1, 7), (2, 8)]) 0x9120 = some 0x204 ∧ pcAfter (base [(1, 7), (2, 7)]) 0x9120 = some 0x202 := by
  decide

/-- U1, and `0000` at 0xFFE (T22): `pc` wraps. -/
theorem test_undef :
    regsAfter (base [(0, 0x10), (1, 0x01), (2, 0x02)]) 0x0000 [0, 1, 2, 15] = some [0x10, 0x01, 0x02, 0x00] ∧
      pcAfter { State.reset with pc := 0xFFE } 0x0000 = some 0x000 := by
  decide

/-- U11: `Bnnn` is no jump. -/
theorem test_undef_Bnnn : pcAfter (base [(0, 0x10)]) 0xB300 = some 0x202 := by decide

/-- A1, A2. -/
theorem test_ldVxNn : regsAfter (base [(10, 0x99)]) 0x6A42 [10] = some [0x42] ∧ regsAfter (base [(15, 1)]) 0x6F42 [15] = some [0x42] := by
  decide

/-- A3, A5. -/
theorem test_addVxNn :
    regsAfter (base [(3, 0xF0), (15, 0x07)]) 0x7320 [3, 15] = some [0x10, 0x07] ∧ regsAfter (base [(15, 0xFF)]) 0x7F01 [15] = some [0x00] := by
  decide

/-- A7. -/
theorem test_ldVxVy : regsAfter (base [(1, 0x11), (2, 0x22)]) 0x8120 [1, 2] = some [0x22, 0x22] := by decide

/-- A8. -/
theorem test_orVxVy : regsAfter (base [(1, 0x0F), (2, 0xF0), (15, 0x55)]) 0x8121 [1, 15] = some [0xFF, 0x55] := by decide

/-- A9. -/
theorem test_andVxVy : regsAfter (base [(1, 0x3C), (2, 0x0F), (15, 0x55)]) 0x8122 [1, 15] = some [0x0C, 0x55] := by decide

/-- A10. -/
theorem test_xorVxVy : regsAfter (base [(1, 0xFF), (2, 0x0F), (15, 0x55)]) 0x8123 [1, 15] = some [0xF0, 0x55] := by decide

/-- A12, A15. -/
theorem test_addVxVy :
    regsAfter (base [(1, 0xC8), (2, 0x64)]) 0x8124 [1, 15] = some [0x2C, 1] ∧
      regsAfter (base [(1, 0x7F), (2, 0x80), (15, 1)]) 0x8124 [1, 15] = some [0xFF, 0] := by
  decide

/-- A17, A18, A19: register F as destination, as addend. -/
theorem test_addVxVy_VF :
    regsAfter (base [(15, 0xF0), (1, 0x20)]) 0x8F14 [15] = some [1] ∧ regsAfter (base [(15, 1), (1, 2)]) 0x8F14 [15] = some [0] ∧
      regsAfter (base [(1, 0xFF), (15, 1)]) 0x81F4 [1, 15] = some [0, 1] := by
  decide

/-- A21, A23. -/
theorem test_subVxVy :
    regsAfter (base [(1, 0x10), (2, 0x20)]) 0x8125 [1, 15] = some [0xF0, 0] ∧
      regsAfter (base [(1, 0x33), (2, 0x33)]) 0x8125 [1, 15] = some [0x00, 1] := by
  decide

/-- A26, A27. -/
theorem test_subVxVy_VF :
    regsAfter (base [(15, 5), (1, 6)]) 0x8F15 [15] = some [0] ∧ regsAfter (base [(1, 5), (15, 1)]) 0x81F5 [1, 15] = some [4, 1] := by
  decide

/-- A28, A29: the old `V1` is not used. -/
theorem test_shrVxVy :
    regsAfter (base [(1, 0xAA), (2, 0x05)]) 0x8126 [1, 2, 15] = some [0x02, 0x05, 1] ∧
      regsAfter (base [(1, 0xAA), (2, 0x04), (15, 1)]) 0x8126 [1, 15] = some [0x02, 0] := by
  decide

/-- A34, A35. -/
theorem test_subnVxVy :
    regsAfter (base [(1, 0x10), (2, 0x20)]) 0x8127 [1, 15] = some [0x10, 1] ∧
      regsAfter (base [(1, 0x20), (2, 0x10)]) 0x8127 [1, 15] = some [0xF0, 0] := by
  decide

/-- A38, A40. -/
theorem test_shlVxVy :
    regsAfter (base [(1, 0x00), (2, 0x81)]) 0x812E [1, 15] = some [0x02, 1] ∧
      regsAfter (base [(1, 0xFF), (2, 0x40), (15, 1)]) 0x812E [1, 15] = some [0x80, 0] := by
  decide

/-- A43. -/
theorem test_rndVxNn : regsAfter { State.reset with rnd := 0xB7 } 0xC30F [3] = some [0x07] := by decide

/-- M2. -/
theorem test_ldINnn : (after (indexed [] 0x1234) 0xAFFF).map (·.index) = some 0x0FFF := by decide

/-- M5, M6: no overflow keeps `VF`; `I` is not masked to 12 bits. -/
theorem test_addIVx :
    (after (indexed [(2, 0x0F), (15, 1)] 0x0FF0) 0xF21E).map (fun t => (t.index, t.reg vf)) = some (0x0FFF, 1) ∧
      (after (indexed [(2, 0x01)] 0x0FFF) 0xF21E).map (fun t => (t.index, t.reg vf)) = some (0x1000, 1) := by
  decide

/-- M8, M10: the comparison is on the unreduced sum; the old `VF` is the addend. -/
theorem test_addIVx_edges :
    (after (indexed [(2, 0x01)] 0xFFFF) 0xF21E).map (fun t => (t.index, t.reg vf)) = some (0x0000, 1) ∧
      (after (indexed [(15, 0x02)] 0x0FFE) 0xFF1E).map (fun t => (t.index, t.reg vf)) = some (0x1000, 1) := by
  decide

/-- M12, M16: the whole byte counts. -/
theorem test_ldFVx :
    (after (base [(4, 0x0A)]) 0xF429).map (·.index) = some 0x0082 ∧ (after (base [(4, 0xFF)]) 0xF429).map (·.index) = some 0x054B := by
  decide

/-- M20: the highest legal `I`. -/
theorem test_ldBVx :
    (after (indexed [(5, 0xFF)] 0x0FFD) 0xF533).map (fun t => (t.byteAt 0xFFD, t.byteAt 0xFFE, t.byteAt 0xFFF)) = some (2, 5, 5) := by
  decide

/-- M21. -/
theorem test_ldBVx_range : haltAfter (indexed [(5, 0xFF)] 0x0FFE) 0xF533 = some (.memRange, 0x202) := by decide

/-- M23: `V3` is not stored, `I` stays. -/
theorem test_ldMemVx :
    (after (indexed [(0, 0x11), (1, 0x22), (2, 0x33), (3, 0x44)] 0x0400) 0xF255).map
        (fun t => (t.byteAt 0x400, t.byteAt 0x401, t.byteAt 0x402, t.byteAt 0x403, t.index))
      = some (0x11, 0x22, 0x33, 0x00, 0x0400) := by
  decide

/-- M28: not even the byte in range is written. -/
theorem test_ldMemVx_range :
    (after (indexed [(0, 0x77), (1, 0x88)] 0x0FFF) 0xF155).map (fun t => (t.haltCause, t.byteAt 0xFFF)) = some (.memRange, 0x00) := by
  decide

/-- M29. -/
theorem test_ldVxMem :
    regsAfter (indexed [(3, 0x99)] 0x0400 [0xAA, 0xBB, 0xCC, 0xDD]) 0xF265 [0, 1, 2, 3] = some [0xAA, 0xBB, 0xCC, 0x99] := by
  decide

/-- M32: `V0` is not loaded. -/
theorem test_ldVxMem_range :
    (after (indexed [(0, 0x05), (1, 0x06)] 0x0FFF) 0xF165).map (fun t => (t.haltCause, t.reg 0)) = some (.memRange, 0x05) := by
  decide

/-- A frame with the given pixels on. -/
def lit (ps : List (Nat × Nat)) : FrameBuffer := ps.foldl (fun fb p => flipPixel fb p.1 p.2) blankFrame

/-- D1. -/
theorem test_cls :
    (after { State.reset with fb := lit [(0, 0), (63, 31)] } 0x00E0).map (fun t => (t.fb, t.redraw)) = some (blankFrame, true) := by
  decide

/-- D4: glyph "0" (bits of a row run from column 0 up); one pixel collides. -/
theorem test_drw :
    frameAfter { indexed [] 0x0050 with fb := lit [(0, 0)] } 0xD015 0 6 = some (1, true, [0b1110, 0b1001, 0b1001, 0b1001, 0b1111, 0]) := by
  decide

/-- D7, D17: a sprite is clipped at both edges, it does not wrap, and clipped bits do not collide. -/
theorem test_drw_clips :
    frameAfter { indexed [(1, 0x1F)] 0x0300 [0x80, 0x80] with fb := lit [(0, 0)] } 0xD012 0 1 = some (0, true, [1]) ∧
      frameAfter { indexed [(0, 0x3C)] 0x0300 [0xFF] with fb := lit [(0, 0)] } 0xD011 0 1 = some (0, true, [0xF000000000000001]) := by
  decide

/-- K1. -/
theorem test_ldVxDt : regsAfter { State.reset with dt := 0x3C } 0xF207 [2] = some [0x3C] := by decide

/-- K2. -/
theorem test_ldDtVx : (after (base [(2, 0x3C)]) 0xF215).map (fun t => (t.dt, t.st)) = some (0x3C, 0) := by decide

/-- K4. -/
theorem test_ldStVx : (after (base [(2, 0x05)]) 0xF218).map (fun t => (t.dt, t.st)) = some (0, 0x05) := by decide

/-- K5, K6. -/
theorem test_skp :
    pcAfter { base [(3, 0x0A)] with keys := 0x0400 } 0xE39E = some 0x204 ∧
      pcAfter { base [(3, 0x0A)] with keys := 0xFBFF } 0xE39E = some 0x202 := by
  decide

/-- K9. -/
theorem test_skp_range : haltAfter { base [(3, 0x10)] with keys := 0xFFFF } 0xE39E = some (.keyRange, 0x202) := by decide

/-- K7, K8. -/
theorem test_sknp :
    pcAfter (base [(3, 0x0A)]) 0xE3A1 = some 0x204 ∧ pcAfter { base [(3, 0x0A)] with keys := 0x0400 } 0xE3A1 = some 0x202 := by
  decide

/-- K10. -/
theorem test_sknp_range : haltAfter (base [(3, 0xFF)]) 0xE3A1 = some (.keyRange, 0x202) := by decide

/-- K14, K16: the lowest key; key 0 is not "no key". -/
theorem test_ldVxK :
    (after { base [(5, 0x77)] with keys := 0x0090 } 0xF50A).map (fun t => (t.reg 5, t.pc)) = some (4, 0x202) ∧
      (after { base [(5, 0x77)] with keys := 0x0001 } 0xF50A).map (fun t => (t.reg 5, t.pc)) = some (0, 0x202) := by
  decide

/-- K13, K17: no key down. -/
theorem test_ldVxK_waits :
    (after (base [(5, 0x77)]) 0xF50A).map (fun t => (t.reg 5, t.pc)) = some (0x77, 0x200) ∧
      pcAfter { State.reset with pc := 0x000 } 0xF50A = some 0x000 := by
  decide

/-! The host's operations -/

/-- The base state with one operation to come. -/
def about (op : HostOp) : State := { State.reset with schedule := [op] }

/-- A Cycle with no key down, and the random byte 0. -/
def plainCycle (stop : Bool := false) : HostOp := .cycle { keys := 0, stopReq := stop, rnd := 0 }

/-- What a step leaves. -/
def stepped (s : State) : Option State :=
  match step s with
  | .next t => some t
  | _ => none

/-- T27: the stop request comes first. -/
theorem test_priority :
    (stepped { about (plainCycle true) with pc := 0xFFF }).map (fun t => (t.haltCause, t.status, t.pc))
      = some (.stopRequest, .stopClean, 0xFFF) := by
  decide

/-- T23. -/
theorem test_fetchRange :
    (stepped { about (plainCycle) with pc := 0xFFF }).map (fun t => (t.haltCause, t.status, t.pc)) = some (.fetchRange, .fatal 4, 0xFFF) := by
  decide

/-- H3, H5. -/
theorem test_tick :
    (stepped { about .tick with dt := 1, st := 255 }).map (fun t => (t.dt, t.st)) = some (0, 254) ∧
      (stepped { about .tick with dt := 5, run := .halted, haltCause := .stackOverflow }).map (fun t => (t.dt, t.haltCause))
        = some (4, .stackOverflow) := by
  decide

/-- H6. -/
theorem test_frameAck : (stepped { about .frameAck with redraw := true }).map (·.redraw) = some false := by decide

/-- H9, H12. -/
theorem test_reset :
    (stepped { about (.reset [0xAB]) with run := .halted, haltCause := .memRange, pc := 0x123, mem := [(0x300, 1)] }).map
        (fun t => (t.byteAt 0x200, t.byteAt 0x201, t.byteAt 0x300, t.byteAt 0x09F, t.pc, t.run))
      = some (0xAB, 0x00, 0x00, 0x80, 0x200, .running) := by
  decide

/-- An image of a given length, all 0xAB. -/
def imageOf (n : Nat) : List Byte := List.replicate n 0xAB

theorem imageOf_length (n : Nat) : (imageOf n).length = n := List.length_replicate

theorem step_about_reset {image : List Byte} (h : 3584 < image.length) : step (about (.reset image)) = .refused .imageTooLong :=
  if_neg (Nat.not_le.2 h)

/-- H11. -/
theorem test_reset_tooLong : step (about (.reset (imageOf 3585))) = .refused .imageTooLong :=
  step_about_reset (by rw [imageOf_length]; decide)

/-! Witnesses: for every obligation with hypotheses, states and operands that meet them, at the boundaries of its clauses -/

theorem witness_DecodeOfEncode : (Instr.drw 15 15 15).wellFormed = true ∧ (Instr.undef 0x0000).wellFormed = true := by decide

theorem witness_DecoderAgreesWithTable :
    opcodeTable[0]? = some ⟨0xFFFF, 0x00E0⟩ ∧ opcodeTable[32]? = some ⟨0xF0FF, 0xF065⟩ := by
  decide

theorem witness_ReadAfterWrite : Memory.wf [(0x050, 0x00), (0xFFF, 0x77)] = true ∧ 0xFFF < 4096 ∧ 4096 ≤ 0x1000 := by decide

theorem witness_EqualReadsEqualMemory :
    Memory.wf [(0x300, 1), (0x301, 2)] = true ∧ (Memory.put [(0x301, 2)] 0x300 1).wf = true ∧
      ∀ a, Memory.read? [(0x300, 1), (0x301, 2)] a = (Memory.put [(0x301, 2)] 0x300 1).read? a :=
  ⟨by decide, by decide, fun _ => rfl⟩

/-- The stored bytes reach the top of memory, and the last two are the word that is fetched; and the smallest store that is one. -/
theorem witness_FetchSeesStore :
    (let s : State := { State.reset with index := 0xFF0, pc := 0xFFE }
     s.mem.wf = true ∧ s.index.toNat + (15 : Reg).val ≤ 0xFFF ∧ (14 : Fin 15).val < (15 : Reg).val ∧
       s.pc.toNat = s.index.toNat + (14 : Fin 15).val) ∧
    (let s : State := { State.reset with index := 0x202, pc := 0x202 }
     s.mem.wf = true ∧ s.index.toNat + (1 : Reg).val ≤ 0xFFF ∧ (0 : Fin 15).val < (1 : Reg).val ∧
       s.pc.toNat = s.index.toNat + (0 : Fin 15).val) := by
  decide

theorem witness_ResetLoadsImage :
    ((about (.reset (imageOf 3584))).schedule = .reset (imageOf 3584) :: [] ∧ (imageOf 3584).length ≤ 3584) ∧
      (about (.reset (imageOf 3585))).schedule = .reset (imageOf 3585) :: [] ∧ ¬ (imageOf 3585).length ≤ 3584 :=
  ⟨⟨rfl, by rw [imageOf_length]⟩, rfl, by rw [imageOf_length]; decide⟩

theorem witness_StepRunsDecodedInstruction :
    (let s : State := { about (.cycle ⟨0x8001, false, 0x5A⟩) with pc := 0xFFE }
     s.schedule = .cycle ⟨0x8001, false, 0x5A⟩ :: [] ∧ s.run = .running ∧ s.pc ≠ 0xFFF) ∧
    (State.reset.schedule = [] ∧ State.reset.stopReq = false ∧ State.reset.run = .running ∧ State.reset.pc ≠ 0xFFF) := by
  decide

theorem witness_TickAndFrameAck :
    (about .tick).schedule = .tick :: [] ∧ (about .frameAck).schedule = .frameAck :: [] := by
  decide

theorem witness_StopRequestHalts :
    (about (.cycle ⟨0, true, 0⟩)).schedule = .cycle ⟨0, true, 0⟩ :: [] ∧ (about (.cycle ⟨0, true, 0⟩)).run = .running := by
  decide

theorem witness_FetchAtTopHalts :
    let s : State := { about (.cycle ⟨0, false, 0⟩) with pc := 0xFFF }
    s.schedule = .cycle ⟨0, false, 0⟩ :: [] ∧ s.run = .running ∧ s.pc = 0xFFF := by
  decide

/-- The core halted with a cause, and the host's next operation. -/
def haltedAbout (c : HaltCause) (op : HostOp) : State := { about op with run := .halted, haltCause := c }

theorem witness_HaltedCycleChangesNothing :
    (haltedAbout .keyRange (.cycle ⟨0xFFFF, true, 7⟩)).schedule = .cycle ⟨0xFFFF, true, 7⟩ :: [] ∧
      (haltedAbout .keyRange (.cycle ⟨0xFFFF, true, 7⟩)).run = .halted := by
  decide

theorem witness_OnlyResetLeavesHalted :
    (∃ t, step (haltedAbout .memRange .tick) = .next t) ∧ (haltedAbout .memRange .tick).run = .halted ∧
      (haltedAbout .memRange .tick).nextIsReset = false :=
  ⟨⟨_, rfl⟩, rfl, rfl⟩

theorem witness_StatusReportsHaltCause :
    Inv State.reset ∧ Inv (haltedAbout .stopRequest .tick) ∧ Inv (haltedAbout .stackOverflow .tick) ∧
      Inv (haltedAbout .keyRange .tick) :=
  ⟨⟨rfl, by decide⟩, ⟨rfl, by decide⟩, ⟨rfl, by decide⟩, ⟨rfl, by decide⟩⟩

/-- A state that keeps the invariant with memory, stack and registers in use, about to run `2300`. -/
def busy : State :=
  ({ indexed [(0, 0xFE), (15, 1)] 0x0400 [1, 2, 3] with sp := 15, dt := 9 }).withFetchWord 16 0x2300

theorem witness_StepKeepsInv : Inv busy ∧ ∃ t, step busy = .next t := ⟨⟨by decide, by decide⟩, _, rfl⟩

theorem witness_OnlyLongImagesRefused : ∃ r, step (about (.reset (imageOf 3585))) = .refused r :=
  ⟨_, test_reset_tooLong⟩

/-- An instruction that completes, and one that halts. -/
theorem witness_AccessMatrix :
    (∃ t, exec (.addVxVy 1 2) State.reset = .next t) ∧ ∃ t, exec .ret State.reset = .next t ∧ t.run = .halted :=
  ⟨⟨_, rfl⟩, _, rfl, rfl⟩

theorem witness_TimersRiseOnlyByWrite :
    (∃ t, step ((base [(2, 0xFF)]).withFetchWord 16 0xF215) = .next t ∧ 0 < t.dt.toNat) ∧
      ∃ t, step ((base [(2, 0xFF)]).withFetchWord 16 0xF218) = .next t ∧ 0 < t.st.toNat :=
  ⟨⟨_, rfl, by decide⟩, _, rfl, by decide⟩

/-- Fx33, Fx55 and Reset each change a byte. -/
theorem witness_MemoryWrittenOnlyBy :
    (let s := (indexed [(0, 0xFE)] 0x0300).withFetchWord 16 0xF033
     ∃ t, step s = .next t ∧ t.mem.read? 0x300 ≠ s.mem.read? 0x300) ∧
    (let s := (indexed [(0, 0xFE)] 0x0FFF).withFetchWord 16 0xF055
     ∃ t, step s = .next t ∧ t.mem.read? 0xFFF ≠ s.mem.read? 0xFFF) ∧
    ∃ t, step (about (.reset [0x12])) = .next t ∧ t.mem.read? 0x200 ≠ State.reset.mem.read? 0x200 :=
  ⟨⟨_, rfl, by decide⟩, ⟨_, rfl, by decide⟩, _, rfl, by decide⟩

/-- 00E0, Dxyn and Reset each change the frame. -/
theorem witness_FrameBufferWrittenOnlyBy :
    (let s := ({ State.reset with fb := lit [(63, 31)] }).withFetchWord 16 0x00E0
     ∃ t, step s = .next t ∧ t.fb ≠ s.fb) ∧
    (let s := (indexed [] 0x0050).withFetchWord 16 0xD011
     ∃ t, step s = .next t ∧ t.fb ≠ s.fb) ∧
    (let s := { about (.reset []) with fb := lit [(0, 0)] }
     ∃ t, step s = .next t ∧ t.fb ≠ s.fb) :=
  ⟨⟨_, rfl, by decide⟩, ⟨_, rfl, by decide⟩, _, rfl, by decide⟩

/-- Each clause: a clear; a draw of no rows that does not fault; the flag going up; the flag going down by FrameAck and by Reset. -/
theorem witness_RedrawFlagRule :
    (let s := State.reset.withFetchWord 16 0x00E0
     s.stepRuns? = some .cls ∧ s.redraw = false ∧ ∃ t, step s = .next t ∧ t.redraw = true) ∧
    (let s := (indexed [] 0xFFFF).withFetchWord 16 0xD010
     s.stepRuns? = some (.drw 0 1 0) ∧ s.redraw = false ∧ ∃ t, step s = .next t ∧ t.run = .running ∧ t.redraw = true) ∧
    (let s := { about .frameAck with redraw := true }
     ∃ t, step s = .next t ∧ t.redraw = false) ∧
    (let s := { about (.reset []) with redraw := true }
     ∃ t, step s = .next t ∧ t.redraw = false) :=
  ⟨⟨by decide, rfl, _, rfl, rfl⟩, ⟨by decide, rfl, _, rfl, rfl, rfl⟩, ⟨_, rfl, rfl⟩, _, rfl, rfl⟩

theorem witness_OutputsAreNotRead :
    (busy.hideOutputs = { busy with st := 200, redraw := true }.hideOutputs) ∧ busy ≠ { busy with st := 200, redraw := true } :=
  ⟨rfl, by decide⟩

theorem witness_InputsIgnored : readsRnd (.skp 0) = false ∧ readsKeys (.rndVxNn 0 0xFF) = false := by decide

theorem witness_JumpGoesToTarget : fieldOp 0x1000 = 0x1 ∧ fieldOp 0x1FFF = 0x1 := by decide

/-- The jump to itself at 0x200 and at 0xFFE. -/
theorem witness_JumpToSelfIsFixedPoint :
    (let s := State.reset.withFetchWord 16 0x1200
     s.schedule = .cycle ⟨0, false, 0⟩ :: [] ∧ s.run = .running ∧ s.pc ≠ 0xFFF ∧
       wordOfBytes (s.byteAt s.pc.toNat) (s.byteAt (s.pc.toNat + 1)) = encode (.jp s.pc)) ∧
    (let s := ({ State.reset with pc := 0xFFE }).withFetchWord 16 0x1FFE
     s.schedule = .cycle ⟨0, false, 0⟩ :: [] ∧ s.run = .running ∧ s.pc ≠ 0xFFF ∧
       wordOfBytes (s.byteAt s.pc.toNat) (s.byteAt (s.pc.toNat + 1)) = encode (.jp s.pc)) := by
  decide

theorem witness_CallPushesReturnAddress :
    ({ State.reset with sp := 15 } : State).sp.val < 16 ∧ ({ State.reset with sp := 16 } : State).sp.val = 16 := by
  decide

theorem witness_ReturnPopsAddress : 0 < ({ State.reset with sp := 1 } : State).sp.val ∧ State.reset.sp.val = 0 := by decide

theorem witness_ReturnUndoesCall : State.reset.sp.val < 16 ∧ ({ State.reset with sp := 15 } : State).sp.val < 16 := by decide

theorem witness_UndefinedIsNoOp : definedWord 0x0000 = false ∧ definedWord 0xFFFF = false := by decide

theorem witness_LoadImmediate : fieldOp 0x6000 = 0x6 ∧ fieldOp 0x6FFF = 0x6 := by decide

theorem witness_CopyRegister : fieldOp 0x8FF0 = 0x8 ∧ fieldN 0x8FF0 = 0 := by decide

theorem witness_LogicRegisters :
    (fieldOp 0x8FE1 = 0x8 ∧ fieldN 0x8FE1 = 1) ∧ (fieldOp 0x8FE2 = 0x8 ∧ fieldN 0x8FE2 = 2) ∧
      fieldOp 0x8FE3 = 0x8 ∧ fieldN 0x8FE3 = 3 := by
  decide

theorem witness_AddWithCarryOut : (fieldOp 0x8FE4 = 0x8 ∧ fieldN 0x8FE4 = 4) ∧ (14 : Reg) ≠ 15 := by decide

theorem witness_SubtractNoBorrow :
    (fieldOp 0x8FE5 = 0x8 ∧ fieldN 0x8FE5 = 5) ∧ (fieldOp 0x8FE7 = 0x8 ∧ fieldN 0x8FE7 = 7) ∧ (0 : Reg) ≠ 15 := by
  decide

theorem witness_ShiftsOfVy :
    (fieldOp 0x8FE6 = 0x8 ∧ fieldN 0x8FE6 = 6) ∧ (fieldOp 0x8FEE = 0x8 ∧ fieldN 0x8FEE = 0xE) ∧ (1 : Reg) ≠ 15 := by
  decide

theorem witness_LoadIndex : fieldOp 0xA000 = 0xA ∧ fieldOp 0xAFFF = 0xA := by decide

/-- The sum at 0xFFF and at 0x1000. -/
theorem witness_AddToIndex :
    ¬ (indexed [(2, 0x0F)] 0x0FF0).index.toNat + ((indexed [(2, 0x0F)] 0x0FF0).reg 2).toNat > 0xFFF ∧
      (indexed [(2, 0x10)] 0x0FF0).index.toNat + ((indexed [(2, 0x10)] 0x0FF0).reg 2).toNat > 0xFFF := by
  decide

theorem witness_GlyphAddress : fieldOp 0xFF29 = 0xF ∧ fieldNN 0xFF29 = 0x29 := by decide

theorem witness_StoreDecimal :
    (indexed [] 0xFFD).index.toNat + 2 ≤ 0xFFF ∧ (indexed [] 0xFFD).mem.wf = true ∧ (indexed [] 0xFFE).index.toNat + 2 > 0xFFF := by
  decide

theorem witness_StoreRegisters :
    (indexed [] 0xFF0).index.toNat + (15 : Reg).val ≤ 0xFFF ∧ (indexed [] 0xFF0).mem.wf = true ∧
      (indexed [] 0xFF1).index.toNat + (15 : Reg).val > 0xFFF ∧ (indexed [] 0xFFF).index.toNat + (0 : Reg).val ≤ 0xFFF := by
  decide

theorem witness_LoadRegisters :
    (indexed [] 0xFFF).index.toNat + (0 : Reg).val ≤ 0xFFF ∧ (indexed [] 0x1000).index.toNat + (0 : Reg).val > 0xFFF := by
  decide

/-- A sprite of 15 rows at the last row, drawn from the last column. -/
theorem witness_BlitInvertsSetBits : 63 ≤ 63 ∧ 31 + (List.replicate 15 (0xFF : Byte)).length ≤ 46 := by decide

theorem witness_DrawSprite :
    ((0 : Fin 16).val = 0 ∨ (indexed [] 0xFFFF).index.toNat + (0 : Fin 16).val - 1 ≤ 0xFFF) ∧
      ((15 : Fin 16).val = 0 ∨ (indexed [] 0xFF1).index.toNat + (15 : Fin 16).val - 1 ≤ 0xFFF) ∧
      (0 < (15 : Fin 16).val ∧ (indexed [] 0xFF2).index.toNat + (15 : Fin 16).val - 1 > 0xFFF) ∧
      (0 < (1 : Fin 16).val ∧ (indexed [] 0x1000).index.toNat + (1 : Fin 16).val - 1 > 0xFFF) := by
  decide

theorem witness_TimerRegisters :
    (fieldOp 0xF207 = 0xF ∧ fieldNN 0xF207 = 0x07) ∧ (fieldOp 0xF215 = 0xF ∧ fieldNN 0xF215 = 0x15) ∧
      fieldOp 0xF218 = 0xF ∧ fieldNN 0xF218 = 0x18 := by
  decide

theorem witness_SkipsOnKey : ((base [(3, 15)]).reg 3).toNat ≤ 15 ∧ ((base [(3, 16)]).reg 3).toNat > 15 := by decide

/-- No key; keys 4 and 7; key 15 alone. -/
theorem witness_WaitForKey :
    State.reset.keys = 0 ∧
      (4 < 16 ∧ (0x0090 : BitVec 16).getLsbD 4 = true ∧ ∀ j, j < 4 → (0x0090 : BitVec 16).getLsbD j = false) ∧
      (15 < 16 ∧ (0x8000 : BitVec 16).getLsbD 15 = true ∧ ∀ j, j < 15 → (0x8000 : BitVec 16).getLsbD j = false) := by
  decide

end Sys2Proof.Tests
end

/-! PROOFS. The state, its invariant and what each operation may touch (10_state). -/

namespace Sys2Proof.Machine

/-! Memories in canonical form are determined by their reads -/

/-- The first entry of a canonical memory is seen by a read: it differs from what Reset leaves. -/
theorem lookup_head_ne {lo a : Nat} {x : Byte} {rest : Memory} (h : Memory.wfFrom lo ((a, x) :: rest) = true) :
    Memory.lookup ((a, x) :: rest) a ≠ initialByte a := by
  obtain ⟨-, -, hx, -⟩ := wfFrom_cons.1 h
  simpa [Memory.lookup] using hx

/-- Of two canonical memories that read alike the first does not begin earlier: its first entry would be seen in it only. -/
theorem head_le_of_lookup_eq {lo lo' a b : Nat} {x y : Byte} {rest rest' : Memory}
    (h : Memory.wfFrom lo ((a, x) :: rest) = true) (h' : Memory.wfFrom lo' ((b, y) :: rest') = true)
    (heq : ∀ c, c < Config.memSize → Memory.lookup ((a, x) :: rest) c = Memory.lookup ((b, y) :: rest') c) : b ≤ a := by
  by_contra hlt
  obtain ⟨-, ha, -, -⟩ := wfFrom_cons.1 h
  obtain ⟨-, hb, hy, hrest'⟩ := wfFrom_cons.1 h'
  have hbelow : Memory.lookup ((b, y) :: rest') a = initialByte a :=
    lookup_below (wfFrom_cons.2 ⟨le_rfl, hb, hy, hrest'⟩) (by omega)
  exact lookup_head_ne h ((heq a ha).trans hbelow)

theorem eq_of_lookup_eq {lo lo' : Nat} {m m' : Memory} (h : Memory.wfFrom lo m = true) (h' : Memory.wfFrom lo' m' = true)
    (heq : ∀ a, a < Config.memSize → m.lookup a = m'.lookup a) : m = m' := by
  induction m generalizing lo lo' m' with
  | nil =>
    cases m' with
    | nil => rfl
    | cons e rest' => exact absurd (heq e.1 (wfFrom_cons.1 h').2.1).symm (lookup_head_ne h')
  | cons e rest ih =>
    obtain ⟨a, x⟩ := e
    cases m' with
    | nil => exact absurd (heq a (wfFrom_cons.1 h).2.1) (lookup_head_ne h)
    | cons e' rest' =>
      obtain ⟨b, y⟩ := e'
      obtain rfl : a = b :=
        le_antisymm (head_le_of_lookup_eq h' h fun c hc => (heq c hc).symm) (head_le_of_lookup_eq h h' heq)
      obtain ⟨-, ha, -, hrest⟩ := wfFrom_cons.1 h
      obtain ⟨-, -, -, hrest'⟩ := wfFrom_cons.1 h'
      have hxy : x = y := by simpa [Memory.lookup] using heq a ha
      have htail : ∀ c, c < Config.memSize → Memory.lookup rest c = Memory.lookup rest' c := by
        intro c hc
        by_cases hac : a = c
        · subst hac
          rw [lookup_below hrest (Nat.lt_succ_self a), lookup_below hrest' (Nat.lt_succ_self a)]
        · simpa [Memory.lookup, hac] using heq c hc
      rw [hxy, ih hrest hrest' htail]

/-- Settles O9, by induction on the entries of the two memories. -/
theorem equalReadsEqualMemory : Obligations.EqualReadsEqualMemory := by
  unfold Obligations.EqualReadsEqualMemory
  intro m m' h h' hread
  refine eq_of_lookup_eq h h' fun a ha => ?_
  simpa [read?_lt ha] using hread a

/-! What the execute step can do: complete inside the access matrix, or raise the instruction's one cause -/

/-- The result is a next state in which nothing has changed but what `f` names, with memory canonical if it was. -/
def Completes (f : Touched) (s : State) (r : Result) : Prop :=
  ∃ t, r = .next t ∧ SameExcept f s t ∧ (s.mem.wf = true → t.mem.wf = true)

variable {s t : State}

/-- A next state with the same memory completes as its frame says. -/
theorem completes_next {f : Touched} (h : SameExcept f s t) (hmem : t.mem = s.mem) : Completes f s (.next t) :=
  ⟨t, rfl, h, fun hwf => hmem ▸ hwf⟩

theorem completes_setReg (x : Reg) (b : Byte) : Completes { regs := [x] } s (.next (s.setReg x b)) :=
  completes_next (setReg_same s x b) rfl

theorem completes_skipIf (c : Bool) : Completes { pc := true } s (skipIf c s) := by
  cases c
  · exact completes_next (sameExcept_rfl _ s) rfl
  · exact completes_next (setPc_same s _) rfl

theorem completes_writeResultFlag (x : Reg) (r : Byte) (f : Bool) :
    Completes { regs := [x, vf] } s (writeResultFlag x r f s) := by
  obtain ⟨t, ht, -, -, hsame⟩ := writeResultFlag_spec x r f s
  have hmem : t.mem = s.mem := by
    cases ht
    rfl
  exact ht ▸ completes_next hsame hmem

theorem setIndex_same (s : State) (i : Word) : SameExcept { index := true } s (s.setIndex i) :=
  { sameExcept_rfl _ s with index := nofun }

theorem setDt_same (s : State) (b : Byte) : SameExcept { dt := true } s (s.setDt b) :=
  { sameExcept_rfl _ s with dt := nofun }

theorem setSt_same (s : State) (b : Byte) : SameExcept { st := true } s (s.setSt b) :=
  { sameExcept_rfl _ s with st := nofun }

theorem showFrame_same (s : State) (fb : FrameBuffer) : SameExcept { fb := true, redraw := true } s (s.showFrame fb) :=
  { sameExcept_rfl _ s with fb := nofun, redraw := nofun }

theorem pop?_mem {a : Addr} (h : s.pop? = some (a, t)) : t.mem = s.mem := by
  simp only [State.pop?, Option.dite_none_right_eq_some, Option.some.injEq, Prod.mk.injEq] at h
  obtain ⟨-, -, rfl⟩ := h
  rfl

theorem push?_mem {a : Addr} (h : s.push? a = some t) : t.mem = s.mem := by
  simp only [State.push?, Option.dite_none_right_eq_some, Option.some.injEq] at h
  obtain ⟨-, rfl⟩ := h
  rfl

/-- `00EE` pops `pc`, or raises StackUnderflow. -/
theorem execRet_cases (s : State) :
    Completes { pc := true, sp := true } s (execRet s) ∨ execRet s = raise .stackUnderflow s := by
  rcases Nat.eq_zero_or_pos s.sp.val with h | h
  · exact .inr (by rw [execRet, pop?_empty h])
  · obtain ⟨t, ht, -, hsame⟩ := pop?_notEmpty h
    rw [execRet, ht]
    exact .inl (completes_next { hsame with pc := nofun } ((setPc_mem t _).trans (pop?_mem ht)))

/-- `2nnn` pushes `pc` and jumps, or raises StackOverflow. -/
theorem execCall_cases (nnn : Addr) (s : State) :
    Completes { pc := true, stack := [s.sp.val], sp := true } s (execCall nnn s) ∨
      execCall nnn s = raise .stackOverflow s := by
  rcases Nat.lt_or_ge s.sp.val 16 with h | h
  · obtain ⟨t, ht, -, -, hsame⟩ := push?_notFull h s.pc
    rw [execCall, ht]
    exact .inl (completes_next { hsame with pc := nofun } ((setPc_mem t _).trans (push?_mem ht)))
  · exact .inr (by rw [execCall, push?_full (by omega)])

/-- `Dxyn` writes the flag and shows a frame, or raises MemRange. -/
theorem execDrw_cases (x y : Reg) (n : Fin 16) (s : State) :
    (∃ f fb, execDrw x y n s = .next ((s.setFlag f).showFrame fb)) ∨ execDrw x y n s = raise .memRange s := by
  by_cases h : s.dataInRange n.val = true
  · exact .inl ⟨_, _, (if_pos h).trans (loadThen_eq h _)⟩
  · exact .inr (if_neg h)

theorem completes_setFlag_showFrame (f : Bool) (fb : FrameBuffer) :
    Completes { regs := [vf], fb := true, redraw := true } s (.next ((s.setFlag f).showFrame fb)) :=
  completes_next { setReg_same s vf (flagByte f) with fb := nofun, redraw := nofun } rfl

/-- `Fx1E` writes `VF` exactly on overflow (42_index_memory R141). -/
theorem completes_execAddIVx (x : Reg) : Completes (touches s (.addIVx x)) s (execAddIVx x s) := by
  by_cases h : s.index.toNat + (s.reg x).toNat > 0xFFF
  · have hov : indexOverflow s.index (s.reg x) = true := decide_eq_true h
    simp only [touches, execAddIVx, if_pos h, if_pos hov]
    exact completes_next { setReg_same s vf (flagByte true) with index := nofun } rfl
  · have hov : ¬ indexOverflow s.index (s.reg x) = true := by simpa [indexOverflow] using h
    simp only [touches, execAddIVx, if_neg h, if_neg hov]
    exact completes_next (setIndex_same s _) rfl

/-- `Fx0A` writes its register when a key is down and `pc` when none is (44_timers_keys R177). -/
theorem completes_execLdVxK (x : Reg) : Completes (touches s (.ldVxK x)) s (execLdVxK x s) := by
  cases h : s.firstDown with
  | none =>
    simp only [touches, execLdVxK, h, if_pos (firstDown_eq_none.1 h)]
    exact completes_next (setPc_same s _) rfl
  | some k =>
    have hkeys : s.keys ≠ 0 := fun e => by simp [firstDown_eq_none.2 e] at h
    simp only [touches, execLdVxK, h, if_neg hkeys]
    exact completes_setReg x _

/-- A store that is checked first completes or raises MemRange. -/
theorem checkedStore_cases {n : Nat} {bs : List Byte} (hn : bs.length = n) (s : State) :
    Completes { mem := dataAddresses s n } s
        (if s.dataInRange n then storeBytes s (s.dataAddress 0) bs else raise .memRange s) ∨
      (if s.dataInRange n then storeBytes s (s.dataAddress 0) bs else raise .memRange s) = raise .memRange s := by
  subst hn
  split
  · obtain ⟨t, ht, hsame, hstored⟩ := storeBytes_spec ‹s.dataInRange bs.length = true›
    exact .inl ⟨t, ht, hsame, fun hwf => (hstored hwf).1⟩
  · exact .inr rfl

theorem length_decimalDigits (b : Byte) : (decimalDigits b).length = 3 := rfl

theorem length_regsUpTo (x : Reg) (s : State) : (s.regsUpTo x).length = x.val + 1 := by
  simp [State.regsUpTo]

theorem mem_regsBelow {x r : Reg} : r ∈ regsBelow x ↔ r.val ≤ x.val := by
  simp [regsBelow]

/-- `Fx65` loads the registers up to `V[x]` or raises MemRange. -/
theorem execLdVxMem_cases (x : Reg) (s : State) :
    Completes { regs := regsBelow x } s (execLdVxMem x s) ∨ execLdVxMem x s = raise .memRange s := by
  by_cases h : s.dataInRange (x.val + 1) = true
  · refine .inl ?_
    rw [execLdVxMem, if_pos h, loadThen_eq h]
    generalize hbs : (List.range (x.val + 1)).map (fun j => s.mem.lookup (s.dataAddress j)) = bs
    have hlen : bs.length = x.val + 1 := by simp [← hbs]
    obtain ⟨hregs, v, hv⟩ := setRegsFrom_spec s 0 bs (by omega)
    refine completes_next ?_ (by rw [hv])
    constructor
    case regs =>
      intro r hr
      rw [mem_regsBelow] at hr
      rw [hregs, dif_neg (by omega)]
    all_goals
      intros
      rw [hv]
  · exact .inr (if_neg h)

/-- A key skip whose index is checked first completes or raises KeyRange. -/
theorem keySkip_cases (c : Bool) (k : Nat) (s : State) :
    Completes { pc := true } s (if k > 15 then raise .keyRange s else skipIf c s) ∨
      (if k > 15 then raise .keyRange s else skipIf c s) = raise .keyRange s := by
  split
  · exact .inr rfl
  · exact .inl (completes_skipIf c)

/-- Every instruction completes inside the access matrix and keeps memory canonical, or raises the one cause it has. -/
theorem exec_spec (i : Instr) (s : State) :
    Completes (touches s i) s (exec i s) ∨ ∃ c, causeOf i = some c ∧ exec i s = raise c s := by
  cases i with
  | cls => exact .inl (completes_next (showFrame_same s _) rfl)
  | ret => exact (execRet_cases s).imp_right fun h => ⟨_, rfl, h⟩
  | jp nnn => exact .inl (completes_next (setPc_same s nnn) rfl)
  | call nnn => exact (execCall_cases nnn s).imp_right fun h => ⟨_, rfl, h⟩
  | seVxNn | sneVxNn | seVxVy | sneVxVy => exact .inl (completes_skipIf _)
  | ldVxNn x | addVxNn x | ldVxVy x | orVxVy x | andVxVy x | xorVxVy x | rndVxNn x | ldVxDt x =>
    exact .inl (completes_setReg x _)
  | addVxVy x | subVxVy x | shrVxVy x | subnVxVy x | shlVxVy x => exact .inl (completes_writeResultFlag x _ _)
  | ldINnn | ldFVx => exact .inl (completes_next (setIndex_same s _) rfl)
  | drw x y n =>
    obtain ⟨f, fb, h⟩ | h := execDrw_cases x y n s
    · exact .inl (h ▸ completes_setFlag_showFrame f fb :)
    · exact .inr ⟨_, rfl, h⟩
  | skp | sknp => exact (keySkip_cases _ _ s).imp_right fun h => ⟨_, rfl, h⟩
  | ldVxK x => exact .inl (completes_execLdVxK x)
  | ldDtVx => exact .inl (completes_next (setDt_same s _) rfl)
  | ldStVx => exact .inl (completes_next (setSt_same s _) rfl)
  | addIVx x => exact .inl (completes_execAddIVx x)
  | ldBVx x => exact (checkedStore_cases (length_decimalDigits (s.reg x)) s).imp_right fun h => ⟨_, rfl, h⟩
  | ldMemVx x => exact (checkedStore_cases (length_regsUpTo x s) s).imp_right fun h => ⟨_, rfl, h⟩
  | ldVxMem x => exact (execLdVxMem_cases x s).imp_right fun h => ⟨_, rfl, h⟩
  | undef => exact .inl (completes_next (sameExcept_rfl _ s) rfl)

/-- The two ways an instruction answers a next state. -/
theorem exec_next {i : Instr} (h : exec i s = .next t) :
    (SameExcept (touches s i) s t ∧ (s.mem.wf = true → t.mem.wf = true)) ∨ ∃ c, causeOf i = some c ∧ t = s.halt c := by
  obtain ⟨t', ht, hsame, hwf⟩ | ⟨c, hc, hr⟩ := exec_spec i s
  · cases h.symm.trans ht
    exact .inl ⟨hsame, hwf⟩
  · cases h.symm.trans hr
    exact .inr ⟨c, hc, rfl⟩

/-- Settles O25: what each instruction can do, with a raised cause read as the entry into Halted. -/
theorem accessMatrix : Obligations.AccessMatrix := by
  unfold Obligations.AccessMatrix
  intro i s t h
  obtain ⟨hsame, -⟩ | ⟨c, hc, rfl⟩ := exec_next h
  · exact .inl hsame
  · exact .inr ⟨c, hc, haltedBy_halt c s⟩

/-! What a step can do -/

/-- The state an operation works on is the state of the core before the step: `u` is `s` but for `pc`, the ports and the model's own
fields. -/
structure SameCore (s u : State) : Prop where
  v : u.v = s.v
  index : u.index = s.index
  stack : u.stack = s.stack
  sp : u.sp = s.sp
  mem : u.mem = s.mem
  fb : u.fb = s.fb
  dt : u.dt = s.dt
  st : u.st = s.st
  redraw : u.redraw = s.redraw
  run : u.run = s.run
  haltCause : u.haltCause = s.haltCause

/-- Taking the host's operation from the schedule leaves the core alone. -/
theorem sameCore_nextOp (s : State) : SameCore s (nextOp s).2 := by
  obtain ⟨sch, d, h⟩ := nextOp_state s
  rw [h]
  constructor <;> rfl

theorem SameCore.sample {u : State} (h : SameCore s u) (i : Inputs) : SameCore s (u.sample i) := { h with }

theorem SameCore.advance {u : State} (h : SameCore s u) : SameCore s u.advance := { h with }

/-- How a step from `s` comes to a next state `t` (00_scope R8, 40_cycle_control_flow R100): by an operation that runs no instruction,
or by one instruction. -/
inductive StepTo (s t : State) : Prop
  | reset (image : List Byte) (u : State) (idle : s.stepRuns? = none) (isReset : s.nextIsReset = true)
      (legal : image.length ≤ Config.progMax) (eq : t = u.resetTo image)
  | tick (u : State) (idle : s.stepRuns? = none) (core : SameCore s u) (eq : t = u.tick)
  | frameAck (u : State) (idle : s.stepRuns? = none) (isFrameAck : s.nextIsFrameAck = true) (core : SameCore s u)
      (eq : t = u.frameAck)
  | stays (idle : s.stepRuns? = none) (core : SameCore s t)
  | halts (u : State) (c : HaltCause) (idle : s.stepRuns? = none) (core : SameCore s u) (cause : c ≠ .none) (eq : t = u.halt c)
  | runs (u : State) (i : Instr) (ran : s.stepRuns? = some i) (core : SameCore s u) (running : u.run = .running)
      (eq : exec i u = .next t)

/-- Every instruction answers a next state. -/
theorem exec_answers (i : Instr) (s : State) : ∃ t, exec i s = .next t := by
  obtain ⟨t, ht, -⟩ | ⟨c, -, hr⟩ := exec_spec i s
  · exact ⟨t, ht⟩
  · exact ⟨_, hr⟩

/-- A Cycle comes to a next state: it stays Halted, halts before the execute step, or runs one instruction. -/
theorem cycle_spec {u : State} (hcore : SameCore s u) (hruns : s.stepRuns? = u.running?) :
    ∃ t, cycle u = .next t ∧ StepTo s t := by
  obtain ⟨-, hi, hc⟩ | ⟨-, -, hi, hc⟩ | ⟨-, -, -, hi, hc⟩ | ⟨hrun, -, -, i, hi, -, hc⟩ := cycle_cases u
  · exact ⟨_, hc, .stays (hruns.trans hi) hcore⟩
  · exact ⟨_, hc, .halts u .stopRequest (hruns.trans hi) hcore nofun rfl⟩
  · exact ⟨_, hc, .halts u .fetchRange (hruns.trans hi) hcore nofun rfl⟩
  · obtain ⟨t, ht⟩ := exec_answers i u.advance
    exact ⟨t, hc.trans ht, .runs u.advance i (hruns.trans hi) hcore.advance hrun ht⟩

/-- A step comes to a next state in one of these ways, or it is a Reset with too long an image. -/
theorem step_spec (s : State) : (∃ t, step s = .next t ∧ StepTo s t) ∨ step s = .refused .imageTooLong := by
  have hcore := sameCore_nextOp s
  obtain ⟨image, u, hop, hlen, h⟩ | ⟨_, _, -, -, h⟩ | ⟨inputs, u, hop, h⟩ | ⟨u, hop, h⟩ | ⟨u, hop, h⟩ := step_cases s
  · exact .inl ⟨_, h, .reset image u (by simp only [State.stepRuns?, hop]) (by simp only [State.nextIsReset, hop]) hlen rfl⟩
  · exact .inr h
  · rw [hop] at hcore
    rw [h]
    exact .inl (cycle_spec (hcore.sample inputs) (by simp only [State.stepRuns?, hop]))
  · rw [hop] at hcore
    exact .inl ⟨_, h, .tick u (by simp only [State.stepRuns?, hop]) hcore rfl⟩
  · rw [hop] at hcore
    exact .inl ⟨_, h, .frameAck u (by simp only [State.stepRuns?, hop]) (by simp only [State.nextIsFrameAck, hop]) hcore rfl⟩

theorem stepTo_of_step (h : step s = .next t) : StepTo s t := by
  obtain ⟨t', ht, hst⟩ | hr := step_spec s
  · cases h.symm.trans ht
    exact hst
  · cases h.symm.trans hr

/-- Settles O23: every step comes to a next state or is refused. -/
theorem stepNeverFaults : Obligations.StepNeverFaults := by
  unfold Obligations.StepNeverFaults
  intro s f hf
  obtain ⟨t, ht, -⟩ | hr := step_spec s
  · cases hf.symm.trans ht
  · cases hf.symm.trans hr

/-! The invariant -/

/-- Settles O21: Reset with an empty image lists no byte and sets Running and no cause. -/
theorem invHoldsAtReset : Obligations.InvHoldsAtReset := by
  unfold Obligations.InvHoldsAtReset
  exact ⟨rfl, iff_of_true rfl rfl⟩

/-- The invariant speaks of memory, the cause and the run state only. -/
theorem Inv.congr (h : Inv s) (hmem : t.mem = s.mem) (hcause : t.haltCause = s.haltCause) (hrun : t.run = s.run) : Inv t :=
  ⟨hmem ▸ h.memory, hcause ▸ hrun ▸ h.cause⟩

theorem SameCore.inv {u : State} (h : SameCore s u) (hs : Inv s) : Inv u := hs.congr h.mem h.haltCause h.run

theorem inv_halt (h : Inv s) {c : HaltCause} (hc : c ≠ .none) : Inv (s.halt c) := ⟨h.memory, iff_of_false hc nofun⟩

theorem inv_resetTo {image : List Byte} (h : image.length ≤ Config.progMax) : Inv (s.resetTo image) := by
  have hfit : Config.progBase + image.length ≤ Config.memSize := by
    simp only [Config.progBase, Config.memSize, Config.progMax] at h ⊢
    omega
  exact ⟨wfFrom_mono (Nat.zero_le _) (wfFrom_imageCells hfit), iff_of_true rfl rfl⟩

/-- Only a fatal condition halts: the access matrix marks `run` and `haltCause` written for no instruction. -/
theorem touches_halt (s : State) (i : Instr) : (touches s i).halt = false := by
  cases i
  case ldVxK => simp only [touches, apply_ite Touched.halt, ite_self]
  all_goals rfl

theorem causeOf_ne_none {i : Instr} {c : HaltCause} (h : causeOf i = some c) : c ≠ .none := by
  rintro rfl
  cases i <;> cases h

theorem exec_keeps_inv {i : Instr} (h : exec i s = .next t) (hs : Inv s) : Inv t := by
  obtain ⟨hsame, hwf⟩ | ⟨c, hc, rfl⟩ := exec_next h
  · have hcause : t.haltCause = s.haltCause := hsame.haltCause (touches_halt s i)
    have hrun : t.run = s.run := hsame.run (touches_halt s i)
    exact ⟨hwf hs.memory, hcause ▸ hrun ▸ hs.cause⟩
  · exact inv_halt hs (causeOf_ne_none hc)

/-- Settles O22, by the ways a step comes to a next state. -/
theorem stepKeepsInv : Obligations.StepKeepsInv := by
  unfold Obligations.StepKeepsInv
  intro s t hs h
  cases stepTo_of_step h with
  | reset image u idle isReset legal eq => exact eq ▸ inv_resetTo legal
  | tick u idle core eq => exact eq ▸ (core.inv hs).congr rfl rfl rfl
  | frameAck u idle isFrameAck core eq => exact eq ▸ (core.inv hs).congr rfl rfl rfl
  | stays idle core => exact core.inv hs
  | halts u c idle core cause eq => exact eq ▸ inv_halt (core.inv hs) cause
  | runs u i ran core running eq => exact exec_keeps_inv eq (core.inv hs)

/-! What writes memory, the framebuffer and the redraw flag -/

theorem touches_mem (s : State) (i : Instr) :
    (touches s i).mem = [] ∨ (∃ x, i = .ldBVx x) ∨ ∃ x, i = .ldMemVx x := by
  cases i
  case ldBVx x => exact .inr (.inl ⟨x, rfl⟩)
  case ldMemVx x => exact .inr (.inr ⟨x, rfl⟩)
  case ldVxK => exact .inl (by simp only [touches, apply_ite Touched.mem, ite_self])
  all_goals exact .inl rfl

theorem touches_display (s : State) (i : Instr) :
    ((touches s i).fb = false ∧ (touches s i).redraw = false) ∨ i = .cls ∨ ∃ x y n, i = .drw x y n := by
  cases i
  case cls => exact .inr (.inl rfl)
  case drw x y n => exact .inr (.inr ⟨x, y, n, rfl⟩)
  case ldVxK => exact .inl (by simp only [touches, apply_ite Touched.fb, apply_ite Touched.redraw, ite_self, and_self])
  all_goals exact .inl ⟨rfl, rfl⟩

/-- An instruction that changes a byte is an Fx33 or an Fx55. -/
theorem exec_mem {i : Instr} (h : exec i s = .next t) {a : Nat} (ha : t.mem.read? a ≠ s.mem.read? a) :
    (∃ x, i = .ldBVx x) ∨ ∃ x, i = .ldMemVx x := by
  obtain ⟨hsame, -⟩ | ⟨c, -, rfl⟩ := exec_next h
  · obtain hnil | hstore := touches_mem s i
    · exact absurd (hsame.mem a (by simp [hnil])) ha
    · exact hstore
  · exact absurd rfl ha

/-- An instruction that is no 00E0 and no Dxyn leaves the framebuffer and the redraw flag as they were. -/
theorem exec_display {i : Instr} (h : exec i s = .next t) :
    (t.fb = s.fb ∧ t.redraw = s.redraw) ∨ i = .cls ∨ ∃ x y n, i = .drw x y n := by
  obtain ⟨hsame, -⟩ | ⟨c, -, rfl⟩ := exec_next h
  · exact (touches_display s i).imp_left fun ⟨hfb, hredraw⟩ => ⟨hsame.fb hfb, hsame.redraw hredraw⟩
  · exact .inl ⟨rfl, rfl⟩

/-- A Dxyn sets the redraw flag, or halts and leaves it. -/
theorem execDrw_redraw {x y : Reg} {n : Fin 16} (h : exec (.drw x y n) s = .next t) :
    t.redraw = true ∨ (t.run = .halted ∧ t.redraw = s.redraw) := by
  obtain ⟨f, fb, hd⟩ | hr := execDrw_cases x y n s
  · cases h.symm.trans hd
    exact .inl rfl
  · cases h.symm.trans hr
    exact .inr ⟨rfl, rfl⟩

theorem execCls_redraw (h : exec .cls s = .next t) : t.redraw = true := by
  cases h
  rfl

/-- No instruction clears the redraw flag. -/
theorem exec_keeps_redraw {i : Instr} (h : exec i s = .next t) (hs : s.redraw = true) : t.redraw = true := by
  obtain ⟨-, heq⟩ | rfl | ⟨x, y, n, rfl⟩ := exec_display h
  · exact heq.trans hs
  · exact execCls_redraw h
  · obtain ht | ⟨-, heq⟩ := execDrw_redraw h
    · exact ht
    · exact heq.trans hs

/-- Settles O27: the range of a read, and the ways a step comes to a next state. -/
theorem memoryWrittenOnlyBy : Obligations.MemoryWrittenOnlyBy := by
  unfold Obligations.MemoryWrittenOnlyBy
  refine ⟨fun s a => ?_, fun s t a h hne => ?_⟩
  · simp only [Memory.read?, Option.isSome_ite, Config.memSize]
    omega
  · cases stepTo_of_step h with
    | reset image u idle isReset legal eq => exact .inl isReset
    | tick u idle core eq => exact absurd (by rw [eq, tick_mem, core.mem]) hne
    | frameAck u idle isFrameAck core eq => exact absurd (by rw [eq, frameAck_mem, core.mem]) hne
    | stays idle core => exact absurd (by rw [core.mem]) hne
    | halts u c idle core cause eq => exact absurd (by rw [eq, halt_mem, core.mem]) hne
    | runs u i ran core running eq =>
      rw [← core.mem] at hne
      obtain ⟨x, rfl⟩ | ⟨x, rfl⟩ := exec_mem eq hne
      · exact .inr (.inl ⟨x, ran⟩)
      · exact .inr (.inr ⟨x, ran⟩)

/-- Settles O28, by the ways a step comes to a next state. -/
theorem frameBufferWrittenOnlyBy : Obligations.FrameBufferWrittenOnlyBy := by
  unfold Obligations.FrameBufferWrittenOnlyBy
  intro s t h hne
  cases stepTo_of_step h with
  | reset image u idle isReset legal eq => exact .inl isReset
  | tick u idle core eq => exact absurd (by rw [eq, tick_fb, core.fb]) hne
  | frameAck u idle isFrameAck core eq => exact absurd (by rw [eq, frameAck_fb, core.fb]) hne
  | stays idle core => exact absurd core.fb hne
  | halts u c idle core cause eq => exact absurd (by rw [eq, halt_fb, core.fb]) hne
  | runs u i ran core running eq =>
    obtain ⟨hfb, -⟩ | rfl | ⟨x, y, n, rfl⟩ := exec_display eq
    · exact absurd (hfb.trans core.fb) hne
    · exact .inr (.inl ran)
    · exact .inr (.inr ⟨x, y, n, ran⟩)

/-- A step that runs no instruction leaves the redraw flag as it was, unless it is FrameAck or Reset, which clear it. -/
theorem idle_redraw (h : StepTo s t) (hidle : s.stepRuns? = none) :
    t.redraw = s.redraw ∨ (t.redraw = false ∧ (s.nextIsFrameAck = true ∨ s.nextIsReset = true)) := by
  cases h with
  | reset image u idle isReset legal eq => exact .inr ⟨eq ▸ rfl, .inr isReset⟩
  | tick u idle core eq => exact .inl (eq ▸ core.redraw)
  | frameAck u idle isFrameAck core eq => exact .inr ⟨eq ▸ rfl, .inl isFrameAck⟩
  | stays idle core => exact .inl core.redraw
  | halts u c idle core cause eq => exact .inl (eq ▸ core.redraw)
  | runs u i ran core running eq => cases hidle.symm.trans ran

/-- A step that runs an instruction comes to a next state by that instruction. -/
theorem exec_of_stepRuns {i : Instr} (h : StepTo s t) (hran : s.stepRuns? = some i) :
    ∃ u, SameCore s u ∧ exec i u = .next t := by
  cases h with
  | runs u i' ran core running eq =>
    cases hran.symm.trans ran
    exact ⟨u, core, eq⟩
  | reset image u idle | tick u idle | frameAck u idle | stays idle | halts u c idle => cases hran.symm.trans idle

/-- Settles O29: with an instruction the flag goes up by 00E0 and Dxyn only and never down; without one it never goes up. -/
theorem redrawFlagRule : Obligations.RedrawFlagRule := by
  unfold Obligations.RedrawFlagRule
  intro s t h
  have hst := stepTo_of_step h
  refine ⟨fun hcls => ?_, fun x y n hdrw hrun => ?_, fun hs ht => ?_, fun hs ht => ?_⟩
  · obtain ⟨u, -, hu⟩ := exec_of_stepRuns hst hcls
    exact execCls_redraw hu
  · obtain ⟨u, -, hu⟩ := exec_of_stepRuns hst hdrw
    obtain hset | ⟨hhalt, -⟩ := execDrw_redraw hu
    · exact hset
    · cases hhalt.symm.trans hrun
  · cases hran : s.stepRuns? with
    | none =>
      obtain heq | ⟨hclear, -⟩ := idle_redraw hst hran
      · cases hs.symm.trans (heq.symm.trans ht)
      · cases hclear.symm.trans ht
    | some i =>
      obtain ⟨u, hcore, hu⟩ := exec_of_stepRuns hst hran
      obtain ⟨-, heq⟩ | rfl | ⟨x, y, n, rfl⟩ := exec_display hu
      · cases hs.symm.trans ((heq.trans hcore.redraw).symm.trans ht)
      · exact .inl rfl
      · exact .inr ⟨x, y, n, rfl⟩
  · cases hran : s.stepRuns? with
    | none =>
      obtain heq | ⟨-, hop⟩ := idle_redraw hst hran
      · cases hs.symm.trans (heq.symm.trans ht)
      · exact hop
    | some i =>
      obtain ⟨u, hcore, hu⟩ := exec_of_stepRuns hst hran
      cases (exec_keeps_redraw hu (hcore.redraw.trans hs)).symm.trans ht

/-! Reset -/

theorem font_length : font.length = 80 := rfl

theorem byteAt_reset {a : Nat} (h : a < Config.memSize) : State.reset.byteAt a = initialByte a := by
  simp only [State.byteAt, read?_lt h, Option.getD_some]
  rfl

/-- Settles O11: field by field; a byte of memory is what an unlisted byte reads as. -/
theorem resetState : Obligations.ResetState := by
  unfold Obligations.ResetState
  refine ⟨fun r => ?_, rfl, rfl, rfl, fun k => ?_, getPixel_blankFrame, rfl, rfl, rfl, rfl, rfl, rfl, rfl, rfl,
    fun a ha => ?_, fun k hk => ?_⟩
  · simp [State.reg, State.reset]
  · simp [State.reset]
  · by_cases hlt : a < Config.memSize
    · rw [byteAt_reset hlt, initialByte, if_neg (by simp only [Config.fontBase, Config.fontLen]; omega)]
    · simp only [State.byteAt, read?_ge (Nat.not_lt.1 hlt), Option.getD_none]
  · have hfont : k < font.length := font_length ▸ hk
    rw [byteAt_reset (by simp only [Config.memSize]; omega), initialByte,
      if_pos (by simp only [Config.fontBase, Config.fontLen]; omega), Nat.add_sub_cancel_left,
      List.getElem?_eq_getElem hfont, List.getD_eq_getElem _ _ hfont]

/-! What instructions do not read: the sound timer, the redraw flag, and mostly the sampled random byte and keys -/

/-- Values to put in place of the outputs and the sampled inputs of a state; a field that is none is left as it is. -/
structure Overwrite where
  st : Option Byte := none
  redraw : Option Bool := none
  rnd : Option Byte := none
  keys : Option (BitVec 16) := none

/-- The state with these values in place. -/
def State.overwrite (o : Overwrite) (s : State) : State :=
  { s with
    st := o.st.getD s.st, redraw := o.redraw.getD s.redraw, rnd := o.rnd.getD s.rnd, keys := o.keys.getD s.keys }

/-- The instruction, run in `s`, neither reads nor writes what the overwrite puts in place. -/
structure Overwrite.Foreign (o : Overwrite) (i : Instr) (s : State) : Prop where
  st : (touches s i).st = true → o.st = none
  redraw : (touches s i).redraw = true → o.redraw = none
  rnd : readsRnd i = true → o.rnd = none
  keys : readsKeys i = true → o.keys = none

theorem setRegsFrom_overwrite (o : Overwrite) (s : State) (i : Nat) (bs : List Byte) :
    (s.overwrite o).setRegsFrom i bs = (s.setRegsFrom i bs).overwrite o := by
  induction bs generalizing s i with
  | nil => rfl
  | cons b bs ih =>
    simp only [State.setRegsFrom]
    split
    · exact ih (s.setReg _ b) (i + 1)
    · rfl

theorem showFrame_overwrite {o : Overwrite} (h : o.redraw = none) (s : State) (fb : FrameBuffer) :
    (s.overwrite o).showFrame fb = (s.showFrame fb).overwrite o := by
  simp [State.overwrite, State.showFrame, h]

theorem setSt_overwrite {o : Overwrite} (h : o.st = none) (s : State) (b : Byte) :
    (s.overwrite o).setSt b = (s.setSt b).overwrite o := by
  simp [State.overwrite, State.setSt, h]

theorem skipIf_overwrite (o : Overwrite) (c : Bool) (s : State) :
    skipIf c (s.overwrite o) = mapNext (State.overwrite o) (skipIf c s) := by
  cases c <;> rfl

theorem mapNext_ite (f : State → State) (p : Prop) [Decidable p] (r r' : Result) :
    mapNext f (if p then r else r') = if p then mapNext f r else mapNext f r' :=
  apply_ite (mapNext f) p r r'

theorem storeBytes_overwrite (o : Overwrite) (s : State) (a : Nat) (bs : List Byte) :
    storeBytes (s.overwrite o) a bs = mapNext (State.overwrite o) (storeBytes s a bs) := by
  have hmem : (s.overwrite o).mem = s.mem := rfl
  simp only [storeBytes, hmem]
  cases s.mem.writeBytes? a bs <;> rfl

theorem mapNext_loadThen (f : State → State) (s : State) (a n : Nat) (k : List Byte → Result) :
    mapNext f (loadThen s a n k) = loadThen s a n fun bs => mapNext f (k bs) := by
  unfold loadThen
  cases s.mem.readBytes? a n <;> rfl

theorem execRet_overwrite (o : Overwrite) (s : State) :
    execRet (s.overwrite o) = mapNext (State.overwrite o) (execRet s) := by
  by_cases h : 0 < s.sp.val
  · have h' : 0 < (s.overwrite o).sp.val := h
    simp only [execRet, State.pop?, dif_pos h, dif_pos h']
    rfl
  · have h' : ¬ 0 < (s.overwrite o).sp.val := h
    simp only [execRet, State.pop?, dif_neg h, dif_neg h']
    rfl

theorem execCall_overwrite (o : Overwrite) (nnn : Addr) (s : State) :
    execCall nnn (s.overwrite o) = mapNext (State.overwrite o) (execCall nnn s) := by
  by_cases h : s.sp.val < 16
  · have h' : (s.overwrite o).sp.val < 16 := h
    simp only [execCall, State.push?, dif_pos h, dif_pos h']
    rfl
  · have h' : ¬ (s.overwrite o).sp.val < 16 := h
    simp only [execCall, State.push?, dif_neg h, dif_neg h']
    rfl

theorem execDrw_overwrite {o : Overwrite} (h : o.redraw = none) (x y : Reg) (n : Fin 16) (s : State) :
    execDrw x y n (s.overwrite o) = mapNext (State.overwrite o) (execDrw x y n s) := by
  simp only [execDrw, mapNext_ite, mapNext_loadThen]
  refine if_congr Iff.rfl (congrArg (loadThen s _ _) (funext fun rows => ?_)) rfl
  exact congrArg Host.Outcome.next (showFrame_overwrite h (s.setFlag _) _)

theorem execLdVxMem_overwrite (o : Overwrite) (x : Reg) (s : State) :
    execLdVxMem x (s.overwrite o) = mapNext (State.overwrite o) (execLdVxMem x s) := by
  simp only [execLdVxMem, mapNext_ite, mapNext_loadThen]
  refine if_congr Iff.rfl (congrArg (loadThen s _ _) (funext fun bs => ?_)) rfl
  exact congrArg Host.Outcome.next (setRegsFrom_overwrite o s 0 bs)

theorem execAddIVx_overwrite (o : Overwrite) (x : Reg) (s : State) :
    execAddIVx x (s.overwrite o) = mapNext (State.overwrite o) (execAddIVx x s) := by
  refine congrArg Host.Outcome.next ?_
  rw [apply_ite (State.overwrite o)]
  rfl

theorem isDown_overwrite {o : Overwrite} (h : o.keys = none) (s : State) : (s.overwrite o).isDown = s.isDown := by
  funext k
  simp [State.isDown, State.overwrite, h]

theorem execLdVxK_overwrite {o : Overwrite} (h : o.keys = none) (x : Reg) (s : State) :
    execLdVxK x (s.overwrite o) = mapNext (State.overwrite o) (execLdVxK x s) := by
  have hfirst : (s.overwrite o).firstDown = s.firstDown := by simp only [State.firstDown, isDown_overwrite h]
  rw [execLdVxK, execLdVxK, hfirst]
  cases s.firstDown <;> rfl

/-- A store that is checked first. -/
theorem checkedStore_overwrite (o : Overwrite) (s : State) (n : Nat) (bs : List Byte) :
    (if (s.overwrite o).dataInRange n then storeBytes (s.overwrite o) (s.dataAddress 0) bs
      else raise .memRange (s.overwrite o)) =
      mapNext (State.overwrite o) (if s.dataInRange n then storeBytes s (s.dataAddress 0) bs else raise .memRange s) := by
  rw [mapNext_ite, storeBytes_overwrite]
  rfl

/-- A key skip whose index is checked first. -/
theorem keySkip_overwrite (o : Overwrite) (c : Bool) (k : Nat) (s : State) :
    (if k > 15 then raise .keyRange (s.overwrite o) else skipIf c (s.overwrite o)) =
      mapNext (State.overwrite o) (if k > 15 then raise .keyRange s else skipIf c s) := by
  rw [mapNext_ite, skipIf_overwrite]
  rfl

/-- An instruction commutes with overwriting what it neither reads nor writes. -/
theorem exec_overwrite {o : Overwrite} {i : Instr} {s : State} (ho : o.Foreign i s) :
    exec i (s.overwrite o) = mapNext (State.overwrite o) (exec i s) := by
  cases i with
  | cls => exact congrArg Host.Outcome.next (showFrame_overwrite (ho.redraw rfl) s _)
  | ret => exact execRet_overwrite o s
  | call nnn => exact execCall_overwrite o nnn s
  | seVxNn | sneVxNn | seVxVy | sneVxVy => exact skipIf_overwrite o _ s
  | rndVxNn x nn =>
    have hrnd : (s.overwrite o).rnd = s.rnd := by simp [State.overwrite, ho.rnd rfl]
    exact congrArg (fun b => Host.Outcome.next ((s.overwrite o).setReg x (b &&& nn))) hrnd
  | drw x y n => exact execDrw_overwrite (ho.redraw rfl) x y n s
  | skp x =>
    simp only [exec, execSkp, isDown_overwrite (ho.keys rfl)]
    exact keySkip_overwrite o _ _ s
  | sknp x =>
    simp only [exec, execSknp, isDown_overwrite (ho.keys rfl)]
    exact keySkip_overwrite o _ _ s
  | ldVxK x => exact execLdVxK_overwrite (ho.keys rfl) x s
  | ldStVx x => exact congrArg Host.Outcome.next (setSt_overwrite (ho.st rfl) s _)
  | addIVx x => exact execAddIVx_overwrite o x s
  | ldBVx x => exact checkedStore_overwrite o s 3 _
  | ldMemVx x => exact checkedStore_overwrite o s (x.val + 1) _
  | ldVxMem x => exact execLdVxMem_overwrite o x s
  | jp | ldVxNn | addVxNn | ldVxVy | orVxVy | andVxVy | xorVxVy | addVxVy | subVxVy | shrVxVy | subnVxVy | shlVxVy
  | ldINnn | ldVxDt | ldDtVx | ldFVx | undef => rfl

/-- Settles O31: `rnd` alone and `keys` alone are overwrites that no instruction writes. -/
theorem inputsIgnored : Obligations.InputsIgnored := by
  unfold Obligations.InputsIgnored
  refine fun i s => ⟨fun hrnd b => ?_, fun hkeys k => ?_⟩
  · exact exec_overwrite (o := { rnd := some b })
      ⟨fun _ => rfl, fun _ => rfl, fun h => (nomatch hrnd.symm.trans h), fun _ => rfl⟩
  · exact exec_overwrite (o := { keys := some k })
      ⟨fun _ => rfl, fun _ => rfl, fun _ => rfl, fun h => (nomatch hkeys.symm.trans h)⟩

theorem touches_st (s : State) (i : Instr) : (touches s i).st = false ∨ ∃ x, i = .ldStVx x := by
  cases i
  case ldStVx x => exact .inr ⟨x, rfl⟩
  case ldVxK => exact .inl (by simp only [touches, apply_ite Touched.st, ite_self])
  all_goals exact .inl rfl

/-- Hiding the outputs before an instruction makes no difference once they are hidden after it. -/
theorem exec_hideOutputs (i : Instr) (s : State) :
    mapNext State.hideOutputs (exec i s.hideOutputs) = mapNext State.hideOutputs (exec i s) := by
  obtain ⟨-, hredraw⟩ | rfl | ⟨x, y, n, rfl⟩ := touches_display s i
  · obtain hst | ⟨x, rfl⟩ := touches_st s i
    · have hcomm : exec i s.hideOutputs = mapNext State.hideOutputs (exec i s) :=
        exec_overwrite (o := { st := some 0, redraw := some false })
          ⟨fun h => (nomatch hst.symm.trans h), fun h => (nomatch hredraw.symm.trans h), fun _ => rfl, fun _ => rfl⟩
      rw [hcomm]
      cases exec i s <;> rfl
    · rfl
  · rfl
  · simp only [exec, execDrw, mapNext_ite, mapNext_loadThen]
    rfl

theorem cycle_hideOutputs (s : State) :
    mapNext State.hideOutputs (cycle s.hideOutputs) = mapNext State.hideOutputs (cycle s) := by
  have hfetch : s.hideOutputs.fetch? = s.fetch? := rfl
  simp only [cycle, hideOutputs_run, hideOutputs_stopReq, hideOutputs_pc, hfetch]
  cases s.run with
  | halted => rfl
  | running =>
    simp only [mapNext_ite]
    refine if_congr Iff.rfl rfl (if_congr Iff.rfl rfl ?_)
    cases s.fetch? with
    | none => rfl
    | some w => exact exec_hideOutputs (decodeWord w) s.advance

theorem step_hideOutputs (s : State) :
    mapNext State.hideOutputs (step s.hideOutputs) = mapNext State.hideOutputs (step s) := by
  have hop : nextOp s.hideOutputs = ((nextOp s).1, (nextOp s).2.hideOutputs) := by
    cases h : s.schedule with
    | nil => rw [nextOp_nil h, nextOp_nil (s := s.hideOutputs) h]; rfl
    | cons op rest => rw [nextOp_cons h, nextOp_cons (s := s.hideOutputs) h]; rfl
  rw [step, step, hop]
  cases (nextOp s).1 with
  | reset image => rfl
  | cycle inputs => exact cycle_hideOutputs ((nextOp s).2.sample inputs)
  | tick => rfl
  | frameAck => rfl

/-- Settles O30: a step of either state is, but for the outputs, a step of the one state that both become when the outputs are
hidden. -/
theorem outputsAreNotRead : Obligations.OutputsAreNotRead := by
  unfold Obligations.OutputsAreNotRead
  intro s s' h
  rw [← step_hideOutputs s, h, step_hideOutputs s']

end Sys2Proof.Machine

/-! PROOFS. Main memory (20_memory): a byte write and its reads, and the word an Fx55 stores as the next fetch sees it. -/

namespace Sys2Proof.Machine

variable {s : State}

/-- A byte write as a map of reads (20_memory R52, R55). -/
theorem read?_put {m : Memory} {a b : Nat} {x : Byte} (hm : m.wf = true) (ha : a < Config.memSize) :
    (m.put a x).read? b = if b = a then some x else m.read? b := by
  split
  · subst b
    rw [read?_lt ha, lookup_put_same hm]
  · simp only [Memory.read?, lookup_put_other ‹b ≠ a›]

/-- Settles O8: inside memory the write is a `put`, outside neither access is there. -/
theorem readAfterWrite : Obligations.ReadAfterWrite := by
  unfold Obligations.ReadAfterWrite
  refine ⟨fun m a x hm ha => ⟨m.put a x, if_pos ha, wf_put ha hm, ?_, fun b hb => ?_⟩, fun m a x ha => ⟨read?_ge ha, ?_⟩⟩
  · rw [read?_put hm ha, if_pos rfl]
  · rw [read?_put hm ha, if_neg hb]
  · exact if_neg (Nat.not_lt.2 ha)

/-! The word that is stored and fetched -/

theorem wordOfBytes_toNat (hi lo : Byte) : (wordOfBytes hi lo).toNat = hi.toNat * 256 + lo.toNat := append_toNat hi lo

theorem getElem_regsUpTo {x : Reg} {k : Nat} (hk : k < (s.regsUpTo x).length) (h16 : k < 16) :
    (s.regsUpTo x)[k] = s.reg ⟨k, h16⟩ := by
  simp [State.regsUpTo, State.reg]

/-- `Fx55` in range stores each register up to `V[x]` at its place from `I` up and changes nothing else (42_index_memory R144). -/
theorem exec_ldMemVx_inRange {x : Reg} (h : s.index.toNat + x.val ≤ 0xFFF) :
    ∃ t, exec (.ldMemVx x) s = .next t ∧ SameExcept { mem := dataAddresses s (x.val + 1) } s t ∧
      (s.mem.wf = true → ∀ r : Reg, r.val ≤ x.val → t.mem.read? (s.index.toNat + r.val) = some (s.reg r)) := by
  have hlen : (s.regsUpTo x).length = x.val + 1 := length_regsUpTo x s
  have hrange : s.dataInRange (x.val + 1) = true :=
    (dataInRange_iff _).2 (.inr (by simp only [Config.memSize]; omega))
  obtain ⟨t, ht, hsame, hstored⟩ := storeBytes_spec (hlen.symm ▸ hrange)
  refine ⟨t, (if_pos hrange).trans ht, hlen ▸ hsame, fun hwf r hr => ?_⟩
  have hr' : r.val < (s.regsUpTo x).length := by omega
  exact ((hstored hwf).2 r.val hr').trans (congrArg some (getElem_regsUpTo hr' r.isLt))

/-- The fetch is the word of the two bytes that reads at `pc` and at `pc + 1` answer (20_memory R63, R53). -/
theorem fetch?_of_read? {hi lo : Byte} (hhi : s.mem.read? s.pc.toNat = some hi)
    (hlo : s.mem.read? (s.pc.toNat + 1) = some lo) : s.fetch? = some (wordOfBytes hi lo) := by
  simp only [State.fetch?, Memory.readBytes?, hhi, hlo]

/-- Settles O10: the two bytes at `pc` are those that Fx55 has stored for `V[k]` and `V[k + 1]`. -/
theorem fetchSeesStore : Obligations.FetchSeesStore := by
  unfold Obligations.FetchSeesStore
  intro x s k hwf hrange hk hpc
  obtain ⟨t, ht, hsame, hstored⟩ := exec_ldMemVx_inRange hrange
  have hpc' : t.pc.toNat = s.index.toNat + k.val := (congrArg BitVec.toNat (hsame.pc rfl)).trans hpc
  have hhi : t.mem.read? t.pc.toNat = some (s.reg k.castSucc) := hpc' ▸ hstored hwf k.castSucc hk.le
  have hlo : t.mem.read? (t.pc.toNat + 1) = some (s.reg k.succ) := hpc' ▸ hstored hwf k.succ hk
  exact ⟨t, _, ht, fetch?_of_read? hhi hlo, wordOfBytes_toNat _ _⟩

end Sys2Proof.Machine

/-! PROOFS. Decoder, encoder and opcode table (30_encoding R70 to R79): decoding undoes encoding and the other way round, and the
decoder picks the row of the table that fits the word. -/

namespace Sys2Proof

variable {w : Word}

/-! A word put together from its own fields -/

theorem formatNNN_of_fields {op : BitVec 4} (hop : (fieldOp w).toNat = op.toNat) : formatNNN op (fieldNNN w) = w := by
  rw [op_toNat] at hop
  exact BitVec.eq_of_toNat_eq (by rw [formatNNN_toNat, nnn_toNat]; omega)

theorem formatXNN_of_fields {op : BitVec 4} {nn : Byte} (hop : (fieldOp w).toNat = op.toNat)
    (hnn : (fieldNN w).toNat = nn.toNat) : formatXNN op (fieldX w) nn = w := by
  rw [op_toNat] at hop
  rw [nn_toNat] at hnn
  exact BitVec.eq_of_toNat_eq (by rw [formatXNN_toNat, x_val]; omega)

theorem formatXYN_of_fields {op n : BitVec 4} (hop : (fieldOp w).toNat = op.toNat) (hn : (fieldN w).val = n.toNat) :
    formatXYN op (fieldX w) (fieldY w) n = w := by
  rw [op_toNat] at hop
  rw [n_val] at hn
  exact BitVec.eq_of_toNat_eq (by rw [formatXYN_toNat, x_val, y_val]; omega)

/-! Encoding undoes decoding -/

theorem encode_decode0 (w : Word) : encode (decode0 w) = w := by
  unfold decode0
  split
  · exact Eq.symm ‹_›
  split
  · exact Eq.symm ‹_›
  · rfl

theorem encode_decode8 (hop : (fieldOp w).toNat = 0x8) : encode (decode8 w) = w := by
  unfold decode8
  split
  case h_10 => rfl
  all_goals exact formatXYN_of_fields hop ‹_›

theorem encode_decodeE (hop : (fieldOp w).toNat = 0xE) : encode (decodeE w) = w := by
  unfold decodeE
  split
  case h_3 => rfl
  all_goals exact formatXNN_of_fields hop ‹_›

theorem encode_decodeF (hop : (fieldOp w).toNat = 0xF) : encode (decodeF w) = w := by
  unfold decodeF
  split
  case h_10 => rfl
  all_goals exact formatXNN_of_fields hop ‹_›

/-- Family by family; within a family the word is put together again from the fields the decoder took. -/
theorem encode_decodeWord (w : Word) : encode (decodeWord w) = w := by
  unfold decodeWord
  split
  case h_1 => exact encode_decode0 w
  case h_2 hop | h_3 hop | h_11 hop => exact formatNNN_of_fields hop
  case h_4 hop | h_5 hop | h_7 hop | h_8 hop | h_12 hop => exact formatXNN_of_fields hop rfl
  case h_6 hop | h_10 hop =>
    split
    · exact formatXYN_of_fields hop ‹_›
    · rfl
  case h_9 hop => exact encode_decode8 hop
  case h_13 hop => exact formatXYN_of_fields hop rfl
  case h_14 hop => exact encode_decodeE hop
  case h_15 hop => exact encode_decodeF hop
  case h_16 => rfl

/-! Decoding undoes encoding -/

@[simp] theorem fieldN_formatXYN_nibble (op : BitVec 4) (x y : Reg) (n : Fin 16) :
    fieldN (formatXYN op x y (nibble n)) = n :=
  Fin.ext (fieldN_formatXYN ..)

theorem row_eq_none_iff {i : Instr} : i.row = none ↔ ∃ w, i = .undef w := by
  constructor
  · intro h
    cases i with
    | undef w => exact ⟨w, rfl⟩
    | _ => cases h
  · rintro ⟨w, rfl⟩
    rfl

theorem decodeWord_eq_undef_iff : decodeWord w = .undef w ↔ (decodeWord w).row = none := by
  refine ⟨fun h => h ▸ rfl, fun h => ?_⟩
  obtain ⟨v, hv⟩ := row_eq_none_iff.1 h
  have hvw : v = w := by simpa only [hv, encode] using encode_decodeWord w
  exact hvw ▸ hv

/-- An instruction of the table: its constructor fixes the family and the sub-opcode that the decoder looks at. -/
theorem decodeWord_encode_of_row {i : Instr} {k : Nat} (h : i.row = some k) : decodeWord (encode i) = i := by
  cases i with
  | cls | ret => rfl
  | undef => cases h
  | jp | call | ldINnn | seVxNn | sneVxNn | ldVxNn | addVxNn | rndVxNn | seVxVy | sneVxVy | drw =>
    simp [encode, decodeWord]
  | ldVxVy | orVxVy | andVxVy | xorVxVy | addVxVy | subVxVy | shrVxVy | subnVxVy | shlVxVy =>
    simp [encode, decodeWord, decode8]
  | skp | sknp => simp [encode, decodeWord, decodeE]
  | ldVxDt | ldVxK | ldDtVx | ldStVx | addIVx | ldFVx | ldBVx | ldMemVx | ldVxMem => simp [encode, decodeWord, decodeF]

/-! The table against the encoder: an instruction's word fits the instruction's row. But for the two words of family 0, a row's mask
keeps the family alone, the family and `n`, or the family and `nn` -/

theorem formatNNN_and (op op' : BitVec 4) (nnn nnn' : Addr) :
    formatNNN op nnn &&& formatNNN op' nnn' = formatNNN (op &&& op') (nnn &&& nnn') :=
  BitVec.and_append

theorem append_nibble_and {k : Nat} (a a' : BitVec k) (x : Fin 16) :
    (a ++ nibble x) &&& (a' ++ nibble 0) = (a &&& a') ++ nibble 0 :=
  BitVec.and_append.trans (congrArg (_ ++ ·) BitVec.and_zero)

theorem formatXNN_and (op op' : BitVec 4) (x : Reg) (nn nn' : Byte) :
    formatXNN op x nn &&& formatXNN op' 0 nn' = formatXNN (op &&& op') 0 (nn &&& nn') :=
  BitVec.and_append.trans (congrArg (· ++ _) (append_nibble_and op op' x))

theorem formatXYN_and (op op' n n' : BitVec 4) (x y : Reg) :
    formatXYN op x y n &&& formatXYN op' 0 0 n' = formatXYN (op &&& op') 0 0 (n &&& n') := by
  have hxy : (op ++ nibble x ++ nibble y) &&& (op' ++ nibble 0 ++ nibble 0) = (op &&& op') ++ nibble 0 ++ nibble 0 :=
    (append_nibble_and _ _ y).trans (congrArg (· ++ _) (append_nibble_and op op' x))
  exact BitVec.and_append.trans (congrArg (· ++ _) hxy)

theorem selects_of_op {op : BitVec 4} (hop : fieldOp w = op) : OpcodeRow.selects ⟨0xF000, formatNNN op 0⟩ w = true := by
  have hmask : (0xF000 : Word) = formatNNN (BitVec.allOnes 4) 0 := rfl
  rw [OpcodeRow.selects, beq_iff_eq, hmask, ← formatNNN_of_fields (congrArg BitVec.toNat hop), formatNNN_and,
    BitVec.and_allOnes, BitVec.ofNat_eq_ofNat, BitVec.and_zero]

theorem selects_of_op_n {op n : BitVec 4} (hop : fieldOp w = op) (hn : (fieldN w).val = n.toNat) :
    OpcodeRow.selects ⟨0xF00F, formatXYN op 0 0 n⟩ w = true := by
  have hmask : (0xF00F : Word) = formatXYN (BitVec.allOnes 4) 0 0 (BitVec.allOnes 4) := rfl
  rw [OpcodeRow.selects, beq_iff_eq, hmask, ← formatXYN_of_fields (congrArg BitVec.toNat hop) hn, formatXYN_and,
    BitVec.and_allOnes, BitVec.and_allOnes]

theorem selects_of_op_nn {op : BitVec 4} {nn : Byte} (hop : fieldOp w = op) (hnn : fieldNN w = nn) :
    OpcodeRow.selects ⟨0xF0FF, formatXNN op 0 nn⟩ w = true := by
  have hmask : (0xF0FF : Word) = formatXNN (BitVec.allOnes 4) 0 (BitVec.allOnes 8) := rfl
  rw [OpcodeRow.selects, beq_iff_eq, hmask,
    ← formatXNN_of_fields (congrArg BitVec.toNat hop) (congrArg BitVec.toNat hnn), formatXNN_and,
    BitVec.and_allOnes, BitVec.and_allOnes]

theorem row_selects_encode {i : Instr} (h : i.row ≠ none) :
    ∃ k r, i.row = some (k + 1) ∧ opcodeTable[k]? = some r ∧ r.selects (encode i) = true := by
  cases i with
  | undef => exact absurd rfl h
  | cls | ret => exact ⟨_, _, rfl, rfl, rfl⟩
  | jp | call | ldINnn => exact ⟨_, _, rfl, rfl, selects_of_op (fieldOp_formatNNN ..)⟩
  | seVxNn | sneVxNn | ldVxNn | addVxNn | rndVxNn => exact ⟨_, _, rfl, rfl, selects_of_op (fieldOp_formatXNN ..)⟩
  | drw => exact ⟨_, _, rfl, rfl, selects_of_op (fieldOp_formatXYN ..)⟩
  | seVxVy | sneVxVy | ldVxVy | orVxVy | andVxVy | xorVxVy | addVxVy | subVxVy | shrVxVy | subnVxVy | shlVxVy =>
    exact ⟨_, _, rfl, rfl, selects_of_op_n (fieldOp_formatXYN ..) (fieldN_formatXYN ..)⟩
  | skp | sknp | ldVxDt | ldVxK | ldDtVx | ldStVx | addIVx | ldFVx | ldBVx | ldMemVx | ldVxMem =>
    exact ⟨_, _, rfl, rfl, selects_of_op_nn (fieldOp_formatXNN ..) (fieldNN_formatXNN ..)⟩

/-! The table against the decoder: the decoder looks at no more than the bits a family's masks cover -/

/-- The bits of a word that the decoder looks at to pick a row, by the word's family (30_encoding R74). -/
def dispatchMask (op : BitVec 4) : Word :=
  match op.toNat with
  | 0x0 => 0xFFFF
  | 0x5 | 0x8 | 0x9 => 0xF00F
  | 0xE | 0xF => 0xF0FF
  | _ => 0xF000

/-- The decoder and the table look at the same bits of a family's words (decision D1). -/
theorem mask_eq_dispatchMask : ∀ r ∈ opcodeTable, r.mask = dispatchMask (fieldOp r.value) := by decide

/-- The value of a row, as a word, is an instruction of the row. -/
theorem row_decodeWord_value : ∀ e ∈ opcodeTable.zipIdx, (decodeWord e.1.value).row = some (e.2 + 1) := by decide

theorem fieldOp_and_dispatchMask (w : Word) (op : BitVec 4) : fieldOp (w &&& dispatchMask op) = fieldOp w := by
  have hmask : ∀ op, fieldOp (dispatchMask op) = BitVec.allOnes 4 := by decide
  rw [fieldOp, BitVec.extractLsb'_and, ← fieldOp, ← fieldOp, hmask, BitVec.and_allOnes]

theorem fieldN_and_dispatchMask (w : Word) {op : BitVec 4} (hop : op.toNat ∈ [0x5, 0x8, 0x9]) :
    fieldN (w &&& dispatchMask op) = fieldN w := by
  have hmask : ∀ op : BitVec 4, op.toNat ∈ [0x5, 0x8, 0x9] → (dispatchMask op).extractLsb' 0 4 = BitVec.allOnes 4 := by
    decide
  rw [fieldN, BitVec.extractLsb'_and, hmask op hop, BitVec.and_allOnes, fieldN]

theorem fieldNN_and_dispatchMask (w : Word) {op : BitVec 4} (hop : op.toNat ∈ [0xE, 0xF]) :
    fieldNN (w &&& dispatchMask op) = fieldNN w := by
  have hmask : ∀ op : BitVec 4, op.toNat ∈ [0xE, 0xF] → fieldNN (dispatchMask op) = BitVec.allOnes 8 := by decide
  rw [fieldNN, BitVec.extractLsb'_and, ← fieldNN, ← fieldNN, hmask op hop, BitVec.and_allOnes]

theorem and_dispatchMask_zero (w : Word) {op : BitVec 4} (hop : op.toNat = 0) : w &&& dispatchMask op = w := by
  have hmask : dispatchMask op = BitVec.allOnes 16 := by
    rw [dispatchMask, hop]
    rfl
  rw [hmask, BitVec.and_allOnes]

theorem row_decode8_congr {v w : Word} (h : fieldN v = fieldN w) : (decode8 v).row = (decode8 w).row := by
  unfold decode8
  rw [h]
  split <;> rfl

theorem row_decodeE_congr {v w : Word} (h : fieldNN v = fieldNN w) : (decodeE v).row = (decodeE w).row := by
  unfold decodeE
  rw [h]
  split <;> rfl

theorem row_decodeF_congr {v w : Word} (h : fieldNN v = fieldNN w) : (decodeF v).row = (decodeF w).row := by
  unfold decodeF
  rw [h]
  split <;> rfl

/-- Masking the operands away leaves the row that the decoder picks. -/
theorem row_decodeWord_and_dispatchMask (w : Word) :
    (decodeWord (w &&& dispatchMask (fieldOp w))).row = (decodeWord w).row := by
  unfold decodeWord
  rw [fieldOp_and_dispatchMask]
  generalize hop : (fieldOp w).toNat = op
  split
  case h_1 => rw [and_dispatchMask_zero w hop]
  case h_6 | h_10 =>
    rw [fieldN_and_dispatchMask w (by simp [hop])]
    split <;> rfl
  case h_9 => exact row_decode8_congr (fieldN_and_dispatchMask w (by simp [hop]))
  case h_14 => exact row_decodeE_congr (fieldNN_and_dispatchMask w (by simp [hop]))
  case h_15 => exact row_decodeF_congr (fieldNN_and_dispatchMask w (by simp [hop]))
  all_goals rfl

/-- A word that fits a row is dispatched as the row's value is: they agree under the family's mask. -/
theorem row_decodeWord_of_selects {k : Nat} {r : OpcodeRow} (hr : opcodeTable[k]? = some r) (h : r.selects w = true) :
    (decodeWord w).row = some (k + 1) := by
  have hmask : r.mask = dispatchMask (fieldOp r.value) := mask_eq_dispatchMask r (List.mem_of_getElem? hr)
  have hvalue : w &&& r.mask = r.value := beq_iff_eq.1 h
  have hop : fieldOp r.value = fieldOp w := by rw [← hvalue, hmask, fieldOp_and_dispatchMask]
  rw [← row_decodeWord_and_dispatchMask, ← hop, ← hmask, hvalue]
  exact row_decodeWord_value (r, k) (List.mk_mem_zipIdx_iff_getElem?.2 hr)

theorem selects_iff_row {k : Nat} {r : OpcodeRow} (hr : opcodeTable[k]? = some r) :
    r.selects w = true ↔ (decodeWord w).row = some (k + 1) := by
  refine ⟨row_decodeWord_of_selects hr, fun h => ?_⟩
  obtain ⟨k', r', hk', hr', hsel⟩ := row_selects_encode (ne_of_eq_of_ne h nofun)
  obtain rfl : k' = k := by simpa using hk'.symm.trans h
  obtain rfl : r' = r := by simpa using hr'.symm.trans hr
  exact encode_decodeWord w ▸ hsel

/-- Settles O5: a word and the row it fits are dispatched alike; and what the decoder answers encodes to a word of its row. -/
theorem decoderAgreesWithTable : Obligations.DecoderAgreesWithTable := by
  unfold Obligations.DecoderAgreesWithTable
  exact ⟨rfl, fun w k r => selects_iff_row⟩

theorem definedWord_iff_row : definedWord w = true ↔ (decodeWord w).row ≠ none := by
  rw [definedWord, List.any_eq_true]
  constructor
  · rintro ⟨r, hr, hsel⟩
    obtain ⟨k, hk⟩ := List.mem_iff_getElem?.1 hr
    exact ne_of_eq_of_ne ((selects_iff_row hk).1 hsel) nofun
  · intro h
    obtain ⟨k, r, -, hr, hsel⟩ := row_selects_encode h
    exact ⟨r, List.mem_of_getElem? hr, encode_decodeWord w ▸ hsel⟩

theorem definedWord_eq_false_iff : definedWord w = false ↔ decodeWord w = .undef w := by
  rw [decodeWord_eq_undef_iff, ← Bool.not_eq_true, definedWord_iff_row, not_not]

theorem wellFormed_undef_iff : (Instr.undef w).wellFormed = true ↔ definedWord w = false := by
  simp [Instr.wellFormed]

theorem wellFormed_of_row {i : Instr} (h : i.row ≠ none) : i.wellFormed = true := by
  cases i with
  | undef => exact absurd rfl h
  | _ => rfl

theorem decodeWord_encode {i : Instr} (h : i.wellFormed = true) : decodeWord (encode i) = i := by
  cases hrow : i.row with
  | some k => exact decodeWord_encode_of_row hrow
  | none =>
    obtain ⟨w, rfl⟩ := row_eq_none_iff.1 hrow
    exact definedWord_eq_false_iff.1 (wellFormed_undef_iff.1 h)

/-- Settles O3: of the table's instructions by constructor, of an undefined opcode because no row fits its word. -/
theorem decodeOfEncode : Obligations.DecodeOfEncode := by
  unfold Obligations.DecodeOfEncode
  intro i h
  refine ⟨decodeWord_encode h, fun rest => ?_⟩
  rw [encodeBytes, decodeBytes_bytesOfWord, decodeWord_encode h]

theorem wellFormed_decodeWord (w : Word) : (decodeWord w).wellFormed = true := by
  by_cases h : (decodeWord w).row = none
  · rw [decodeWord_eq_undef_iff.2 h, wellFormed_undef_iff, definedWord_eq_false_iff, decodeWord_eq_undef_iff]
    exact h
  · exact wellFormed_of_row h

/-- Settles O4: encoding undoes decoding, and an undefined opcode is answered only where no row fits. -/
theorem encodeOfDecode : Obligations.EncodeOfDecode := by
  unfold Obligations.EncodeOfDecode
  exact fun w => ⟨wellFormed_decodeWord w, encode_decodeWord w⟩

/-- Settles O39: no row fits a word exactly when it decodes to the undefined opcode. -/
theorem undefinedIsNoOp : Obligations.UndefinedIsNoOp := by
  unfold Obligations.UndefinedIsNoOp
  exact ⟨fun _ => definedWord_eq_false_iff.1, fun _ _ => rfl⟩

/-! The undefined words, family by family (30_encoding R77) -/

theorem decode0_eq_undef_iff : decode0 w = .undef w ↔ w ≠ 0x00E0#16 ∧ w ≠ 0x00EE#16 := by
  unfold decode0
  split_ifs <;> simp [*]

theorem decode8_eq_undef_iff :
    decode8 w = .undef w ↔ (fieldN w).val ∈ [0x8, 0x9, 0xA, 0xB, 0xC, 0xD, 0xF] := by
  unfold decode8
  split
  case h_10 =>
    have := (fieldN w).isLt
    simp only [imp_false, List.mem_cons, List.not_mem_nil, true_iff] at *
    omega
  all_goals simp [*]

theorem decodeE_eq_undef_iff : decodeE w = .undef w ↔ (fieldNN w).toNat ∉ [0x9E, 0xA1] := by
  unfold decodeE
  split <;> simp_all

theorem decodeF_eq_undef_iff :
    decodeF w = .undef w ↔ (fieldNN w).toNat ∉ [0x07, 0x0A, 0x15, 0x18, 0x1E, 0x29, 0x33, 0x55, 0x65] := by
  unfold decodeF
  split <;> simp_all

/-- Settles O6, family by family. -/
theorem undefinedSpace : Obligations.UndefinedSpace := by
  unfold Obligations.UndefinedSpace
  intro w
  unfold decodeWord
  split
  case h_1 hop => simp [hop, decode0_eq_undef_iff]
  case h_6 hop | h_10 hop => simp [hop]
  case h_9 hop => simp [hop, decode8_eq_undef_iff]
  case h_14 hop => simp [hop, decodeE_eq_undef_iff]
  case h_15 hop => simp [hop, decodeF_eq_undef_iff]
  case h_16 =>
    have hop : (fieldOp w).toNat = 0xB := by
      have := (fieldOp w).isLt
      simp only [imp_false] at *
      omega
    simp [hop]
  all_goals simp [*]

/-! Fields and bytes -/

theorem fieldNN_eq_append (w : Word) : fieldNN w = nibble (fieldY w) ++ nibble (fieldN w) :=
  BitVec.eq_of_toNat_eq (by rw [nn_toNat, append_toNat, nibble_toNat, nibble_toNat, y_val, n_val]; omega)

theorem fieldNNN_eq_append (w : Word) :
    fieldNNN w = nibble (fieldX w) ++ nibble (fieldY w) ++ nibble (fieldN w) :=
  BitVec.eq_of_toNat_eq (by
    rw [nnn_toNat, append_toNat, append_toNat, nibble_toNat, nibble_toNat, nibble_toNat, x_val, y_val, n_val]
    omega)

/-- Settles O1, every field as a number. -/
theorem fieldsOfWord : Obligations.FieldsOfWord := by
  unfold Obligations.FieldsOfWord
  exact fun w => ⟨op_toNat w, x_val w, y_val w, n_val w, nn_toNat w, nnn_toNat w, fieldNN_eq_append w, fieldNNN_eq_append w⟩

/-- Settles O2, by evaluation of the fourteen words. -/
theorem wordsDecodeAsWritten : Obligations.WordsDecodeAsWritten := by
  unfold Obligations.WordsDecodeAsWritten
  decide

/-- Settles O7, by the word of two bytes as a number. -/
theorem bytesAreBigEndian : Obligations.BytesAreBigEndian := by
  unfold Obligations.BytesAreBigEndian
  exact ⟨fun hi lo _ => ⟨wordOfBytes hi lo, Machine.wordOfBytes_toNat hi lo, rfl⟩, rfl, fun _ => rfl⟩

end Sys2Proof

/-! PROOFS. The Cycle and the control flow (40_cycle_control_flow R100 to R109): how a Cycle comes to its instruction, jumps, calls and
returns, the skips that compare. -/

namespace Sys2Proof.Machine

variable {s : State}

/-! What two changes one after the other leave unchanged -/

theorem SameExcept.trans {f : Touched} {s t u : State} (h : SameExcept f s t) (h' : SameExcept f t u) : SameExcept f s u where
  regs r hr := (h'.regs r hr).trans (h.regs r hr)
  pc hf := (h'.pc hf).trans (h.pc hf)
  index hf := (h'.index hf).trans (h.index hf)
  stack k hk := (h'.stack k hk).trans (h.stack k hk)
  sp hf := (h'.sp hf).trans (h.sp hf)
  mem a ha := (h'.mem a ha).trans (h.mem a ha)
  fb hf := (h'.fb hf).trans (h.fb hf)
  dt hf := (h'.dt hf).trans (h.dt hf)
  st hf := (h'.st hf).trans (h.st hf)
  redraw hf := (h'.redraw hf).trans (h.redraw hf)
  run hf := (h'.run hf).trans (h.run hf)
  haltCause hf := (h'.haltCause hf).trans (h.haltCause hf)
  keys := h'.keys.trans h.keys
  stopReq := h'.stopReq.trans h.stopReq
  rnd := h'.rnd.trans h.rnd
  schedule := h'.schedule.trans h.schedule
  draws := h'.draws.trans h.draws

/-! From a step to the execute step -/

theorem byteAt_eq_lookup {a : Nat} (h : a < Config.memSize) : s.byteAt a = s.mem.lookup a := by
  rw [State.byteAt, read?_lt h, Option.getD_some]

/-- A fetchable `pc` has both its bytes in memory (20_memory R63). -/
theorem pc_succ_lt_memSize (h : s.pc ≠ 0xFFF#12) : s.pc.toNat + 1 < Config.memSize := by
  have hlt := s.pc.isLt
  have hne : s.pc.toNat ≠ 0xFFF := fun e => h (BitVec.eq_of_toNat_eq e)
  simp only [Config.memSize]
  omega

/-- A Cycle that nothing stops runs the instruction its two bytes decode to, with `pc` past it (R100 steps 4 to 7). -/
theorem cycle_eq_exec (hrun : s.run = .running) (hstop : s.stopReq = false) (hpc : s.pc ≠ 0xFFF#12) :
    cycle s = exec (decodeWord (wordOfBytes (s.byteAt s.pc.toNat) (s.byteAt (s.pc.toNat + 1)))) s.advance := by
  have hlt := pc_succ_lt_memSize hpc
  rw [byteAt_eq_lookup (Nat.lt_of_succ_lt hlt), byteAt_eq_lookup hlt]
  obtain ⟨hhalted, -⟩ | ⟨-, hreq, -⟩ | ⟨-, -, htop, -⟩ | ⟨-, -, -, i, -, rfl, hexec⟩ := cycle_cases s
  · exact absurd (hrun.symm.trans hhalted) nofun
  · exact absurd (hstop.symm.trans hreq) nofun
  · exact absurd htop hpc
  · exact hexec

theorem step_of_nextOp_cycle {inputs : Inputs} {u : State} (h : nextOp s = (.cycle inputs, u)) :
    step s = cycle (u.sample inputs) := by
  simp only [step, h, hostOp]

/-- Settles O13: the host's next operation is a Cycle, which runs its instruction; taking the operation and sampling the inputs leave
`run`, `pc` and memory alone. -/
theorem stepRunsDecodedInstruction : Obligations.StepRunsDecodedInstruction := by
  unfold Obligations.StepRunsDecodedInstruction
  constructor
  · rintro s ⟨keys, stopReq, rnd⟩ rest hsched rfl hrun hpc
    rw [step_of_nextOp_cycle (nextOp_cons hsched)]
    exact cycle_eq_exec hrun rfl hpc
  · intro s hsched hstop hrun hpc
    rw [step_of_nextOp_cycle (nextOp_nil hsched)]
    exact cycle_eq_exec hrun hstop hpc

/-! Jumps (R102) -/

theorem decodeWord_of_op_one {w : Word} (h : fieldOp w = 0x1) : decodeWord w = .jp (fieldNNN w) := by
  rw [decodeWord, h]
  rfl

/-- Settles O32: family 1 has one instruction, and that writes `pc` only. -/
theorem jumpGoesToTarget : Obligations.JumpGoesToTarget := by
  unfold Obligations.JumpGoesToTarget
  exact ⟨fun _ => decodeWord_of_op_one, fun nnn s => ⟨s.setPc nnn, rfl, rfl, setPc_same s nnn⟩⟩

/-! Calls and returns (R103, R101) -/

/-- A call with room on the stack: what `execCall_cases` leaves open is where it goes and what it pushes. -/
theorem exec_call_notFull (nnn : Addr) (h : s.sp.val < 16) :
    ∃ t, exec (.call nnn) s = .next t ∧ t.pc = nnn ∧ t.sp.val = s.sp.val + 1 ∧ t.stack[s.sp.val] = s.pc ∧
      SameExcept { pc := true, stack := [s.sp.val], sp := true } s t := by
  obtain ⟨t, ht, hsp, hstack, hsame⟩ := push?_notFull h s.pc
  exact ⟨t.setPc nnn, by simp only [exec, execCall, ht], rfl, hsp, hstack, { hsame with pc := nofun }⟩

theorem exec_call_full (nnn : Addr) (h : s.sp.val = 16) : exec (.call nnn) s = raise .stackOverflow s := by
  simp only [exec, execCall, push?_full h]

/-- A return with an entry on the stack: what `execRet_cases` leaves open is where it goes. -/
theorem exec_ret_notEmpty (h : 0 < s.sp.val) :
    ∃ t, exec .ret s = .next t ∧ t.pc = s.stack[s.sp.val - 1] ∧ t.sp.val = s.sp.val - 1 ∧
      SameExcept { pc := true, sp := true } s t := by
  obtain ⟨t, ht, hsp, hsame⟩ := pop?_notEmpty h
  exact ⟨t.setPc _, by simp only [exec, execRet, ht], rfl, hsp, { hsame with pc := nofun }⟩

theorem exec_ret_empty (h : s.sp.val = 0) : exec .ret s = raise .stackUnderflow s := by
  simp only [exec, execRet, pop?_empty h]

/-- Settles O34, by whether the stack is full. -/
theorem callPushesReturnAddress : Obligations.CallPushesReturnAddress := by
  unfold Obligations.CallPushesReturnAddress
  refine fun nnn s => ⟨fun h => ?_, fun h => ⟨_, exec_call_full nnn h, haltedBy_halt _ s⟩⟩
  obtain ⟨t, ht, hpc, hsp, hstack, hsame⟩ := exec_call_notFull nnn h
  exact ⟨t, ht, hpc, hsp, fun k hk => (getElem_congr_idx hk).trans hstack, hsame⟩

/-- Settles O35, by whether the stack is empty. -/
theorem returnPopsAddress : Obligations.ReturnPopsAddress := by
  unfold Obligations.ReturnPopsAddress
  refine fun s => ⟨fun h => ?_, fun h => ⟨_, exec_ret_empty h, haltedBy_halt _ s⟩⟩
  obtain ⟨t, ht, hpc, hsp, hsame⟩ := exec_ret_notEmpty h
  exact ⟨t, ht, hsp, fun k hk => hpc.trans (getElem_congr_idx hk.symm), hsame⟩

/-- Settles O36: the return pops the entry the call has pushed, so `pc` and `sp` leave the frame of the two together. -/
theorem returnUndoesCall : Obligations.ReturnUndoesCall := by
  unfold Obligations.ReturnUndoesCall
  intro nnn a s h
  obtain ⟨t, ht, -, hsp, hpushed, hcall⟩ := exec_call_notFull nnn h
  obtain ⟨u, hu, hpopped, husp, hret⟩ := exec_ret_notEmpty (s := t.setPc a) (by simp [hsp])
  have hpc : u.pc = s.pc := by simpa [hsp, hpushed] using hpopped
  have husp' : u.sp = s.sp := Fin.ext (by simpa [hsp] using husp)
  have hret' : SameExcept { pc := true, stack := [s.sp.val], sp := true } t u :=
    { hret with pc := nofun, stack := fun k _ => hret.stack k nofun }
  exact ⟨t, u, ht, hu, hpc, husp', { hcall.trans hret' with pc := fun _ => hpc, sp := fun _ => husp' }⟩

/-! Skips that compare (R104 to R107, R109) -/

theorem skipIf_toNat (c : Bool) (s : State) :
    ∃ t, skipIf c s = .next t ∧ t.pc.toNat = (if c then (s.pc.toNat + 2) % 4096 else s.pc.toNat) ∧
      SameExcept { pc := true } s t := by
  obtain ⟨t, ht, hpc, hsame⟩ := skipIf_spec c s
  exact ⟨t, ht, by rw [hpc, apply_ite BitVec.toNat, BitVec.toNat_add]; rfl, hsame⟩

theorem skipIf_beq (a b : Byte) (s : State) :
    ∃ t, skipIf (a == b) s = .next t ∧ t.pc.toNat = (if a = b then (s.pc.toNat + 2) % 4096 else s.pc.toNat) ∧
      SameExcept { pc := true } s t := by
  simpa only [beq_iff_eq] using skipIf_toNat (a == b) s

theorem skipIf_bne (a b : Byte) (s : State) :
    ∃ t, skipIf (a != b) s = .next t ∧ t.pc.toNat = (if a = b then s.pc.toNat else (s.pc.toNat + 2) % 4096) ∧
      SameExcept { pc := true } s t := by
  simpa only [bne_iff_ne, ite_not] using skipIf_toNat (a != b) s

/-- Settles O37: both skips compare `V[x]` with the immediate. -/
theorem skipsOnImmediate : Obligations.SkipsOnImmediate := by
  unfold Obligations.SkipsOnImmediate
  exact fun x nn s => ⟨skipIf_beq (s.reg x) nn s, skipIf_bne (s.reg x) nn s⟩

/-- Settles O38: both skips compare the two registers. -/
theorem skipsOnRegister : Obligations.SkipsOnRegister := by
  unfold Obligations.SkipsOnRegister
  exact fun x y s => ⟨skipIf_beq (s.reg x) (s.reg y) s, skipIf_bne (s.reg x) (s.reg y) s⟩

end Sys2Proof.Machine

/-! PROOFS. The register instructions (41_alu R120 to R133): loads, copies and logic write `V[x]` and no flag; sums, differences and
shifts write their flag after it. -/

namespace Sys2Proof.Machine

/-! From a word to its instruction -/

theorem decodeWord_of_encode_eq {w : Word} {i : Instr} {k : Nat} (hrow : i.row = some k) (henc : encode i = w) :
    decodeWord w = i :=
  henc ▸ decodeWord_encode_of_row hrow

theorem decodeWord_of_op_six {w : Word} (hop : fieldOp w = 0x6) : decodeWord w = .ldVxNn (fieldX w) (fieldNN w) :=
  decodeWord_of_encode_eq rfl (formatXNN_of_fields (congrArg BitVec.toNat hop) rfl)

/-- In family 8 the low nibble selects: a word holds the instruction of the table that is encoded with its registers and its low
nibble (R121). -/
theorem decodeWord_of_op_eight {w : Word} {i : Instr} {k : Nat} {n : BitVec 4} (hrow : i.row = some k)
    (henc : encode i = formatXYN 0x8 (fieldX w) (fieldY w) n) (hop : fieldOp w = 0x8) (hn : fieldN w = n.toFin) :
    decodeWord w = i :=
  decodeWord_of_encode_eq hrow (henc.trans (formatXYN_of_fields (congrArg BitVec.toNat hop) (congrArg Fin.val hn)))

/-! Results and flags as numbers -/

theorem setReg_reg_self (s : State) (x : Reg) (b : Byte) : (s.setReg x b).reg x = b := by
  rw [setReg_reg, if_pos rfl]

/-- What `writeResultFlag_spec` says of the bytes, said of the numbers they stand for. -/
theorem writeResultFlag_toNat {x : Reg} {r : Byte} {f : Bool} {s : State} {result flag : Nat} (hr : r.toNat = result)
    (hf : f.toNat = flag) :
    ∃ t, writeResultFlag x r f s = .next t ∧ (x ≠ 15 → (t.reg x).toNat = result) ∧ (t.reg 15).toNat = flag ∧
      SameExcept { regs := [x, 15] } s t := by
  obtain ⟨t, ht, hx, hvf, hsame⟩ := writeResultFlag_spec x r f s
  have hflag : (t.reg 15).toNat = flag := (congrArg BitVec.toNat hvf).trans ((flagByte_toNat f).trans hf)
  exact ⟨t, ht, fun hne => (congrArg BitVec.toNat (hx hne)).trans hr, hflag, hsame⟩

theorem carryFlag_toNat (a b : Byte) : (carryFlag a b).toNat = if a.toNat + b.toNat > 255 then 1 else 0 :=
  Bool.cond_decide _ 1 0

theorem noBorrowFlag_toNat (a b : Byte) : (noBorrowFlag a b).toNat = if a.toNat ≥ b.toNat then 1 else 0 :=
  Bool.cond_decide _ 1 0

theorem evictedRight_toNat (b : Byte) : (evictedRight b).toNat = b.toNat % 2 :=
  (Nat.toNat_testBit b.toNat 0).trans (by rw [Nat.pow_zero, Nat.div_one])

theorem evictedLeft_toNat (b : Byte) : (evictedLeft b).toNat = b.toNat / 128 := by
  have hbit : (evictedLeft b).toNat = b.toNat / 128 % 2 := Nat.toNat_testBit b.toNat 7
  have hlt := b.isLt
  omega

theorem byte_sub_toNat (a b : Byte) : (a - b).toNat = (a.toNat + 256 - b.toNat) % 256 := by
  have hlt := b.isLt
  rw [BitVec.toNat_sub]
  omega

theorem byte_shiftRight_one_toNat (b : Byte) : (b >>> 1).toNat = b.toNat / 2 := by
  rw [BitVec.toNat_ushiftRight, Nat.shiftRight_eq_div_pow, Nat.pow_one]

theorem byte_shiftLeft_one_toNat (b : Byte) : (b <<< 1).toNat = 2 * b.toNat % 256 := by
  rw [BitVec.toNat_shiftLeft, Nat.shiftLeft_eq, Nat.pow_one, Nat.mul_comm]

/-! Results with a flag (R128 to R132) -/

/-- Settles O44: the sum and its carry. -/
theorem addWithCarryOut : Obligations.AddWithCarryOut := by
  unfold Obligations.AddWithCarryOut
  exact ⟨fun _ => decodeWord_of_op_eight rfl rfl,
    fun _ _ _ => writeResultFlag_toNat (BitVec.toNat_add ..) (carryFlag_toNat ..)⟩

/-- Settles O45: one difference and its flag, with the operands in both orders. -/
theorem subtractNoBorrow : Obligations.SubtractNoBorrow := by
  unfold Obligations.SubtractNoBorrow
  refine ⟨fun _ hop => ⟨decodeWord_of_op_eight rfl rfl hop, decodeWord_of_op_eight rfl rfl hop⟩, fun x y s => ⟨?_, ?_⟩⟩
  · exact writeResultFlag_toNat (byte_sub_toNat (s.reg x) (s.reg y)) (noBorrowFlag_toNat ..)
  · exact writeResultFlag_toNat (byte_sub_toNat (s.reg y) (s.reg x)) (noBorrowFlag_toNat ..)

/-- Settles O46: each shift of `V[y]` with the bit it evicts. -/
theorem shiftsOfVy : Obligations.ShiftsOfVy := by
  unfold Obligations.ShiftsOfVy
  refine ⟨fun _ hop => ⟨decodeWord_of_op_eight rfl rfl hop, decodeWord_of_op_eight rfl rfl hop⟩, fun x y s => ⟨?_, ?_⟩⟩
  · exact writeResultFlag_toNat (byte_shiftRight_one_toNat (s.reg y)) (evictedRight_toNat ..)
  · exact writeResultFlag_toNat (byte_shiftLeft_one_toNat (s.reg y)) (evictedLeft_toNat ..)

/-! Results without a flag (R122 to R127, R133) -/

/-- Settles O40: family 6 has one instruction, and that writes `V[x]` only. -/
theorem loadImmediate : Obligations.LoadImmediate := by
  unfold Obligations.LoadImmediate
  exact ⟨fun _ => decodeWord_of_op_six,
    fun x nn s => ⟨s.setReg x nn, rfl, setReg_reg_self s x nn, setReg_same s x nn⟩⟩

/-- Settles O41: the addition of bytes is modulo 256. -/
theorem addImmediate : Obligations.AddImmediate := by
  unfold Obligations.AddImmediate
  exact fun x nn s => ⟨s.setReg x (s.reg x + nn), rfl, by rw [setReg_reg_self, BitVec.toNat_add], setReg_same s x _⟩

/-- Settles O42: the copy writes `V[x]` only. -/
theorem copyRegister : Obligations.CopyRegister := by
  unfold Obligations.CopyRegister
  exact ⟨fun _ => decodeWord_of_op_eight rfl rfl,
    fun x y s => ⟨s.setReg x (s.reg y), rfl, setReg_reg_self s x _, setReg_same s x _⟩⟩

/-- Settles O43: the three words, then the three results bit by bit. -/
theorem logicRegisters : Obligations.LogicRegisters := by
  unfold Obligations.LogicRegisters
  refine ⟨fun _ hop => ⟨decodeWord_of_op_eight rfl rfl hop, decodeWord_of_op_eight rfl rfl hop,
    decodeWord_of_op_eight rfl rfl hop⟩, fun x y s => ⟨?_, ?_, ?_⟩⟩
  · exact ⟨s.setReg x (s.reg x ||| s.reg y), rfl, fun b => by rw [setReg_reg_self, BitVec.getLsbD_or], setReg_same s x _⟩
  · exact ⟨s.setReg x (s.reg x &&& s.reg y), rfl, fun b => by rw [setReg_reg_self, BitVec.getLsbD_and], setReg_same s x _⟩
  · exact ⟨s.setReg x (s.reg x ^^^ s.reg y), rfl, fun b => by rw [setReg_reg_self, BitVec.getLsbD_xor], setReg_same s x _⟩

/-- Settles O47: the sampled byte is an operand like a register. -/
theorem randomMasked : Obligations.RandomMasked := by
  unfold Obligations.RandomMasked
  exact fun x nn s =>
    ⟨s.setReg x (s.rnd &&& nn), rfl, fun b => by rw [setReg_reg_self, BitVec.getLsbD_and], setReg_same s x _⟩

end Sys2Proof.Machine

/-! PROOFS. The index register and memory (42_index_memory R140 to R146): the three instructions that write `I`, and the three that
access a block of bytes from `I` up or halt. -/

namespace Sys2Proof.Machine

variable {s : State}

/-! The index register (R140 to R142) -/

theorem decodeWord_of_op_ten {w : Word} (hop : fieldOp w = 0xA) : decodeWord w = .ldINnn (fieldNNN w) :=
  decodeWord_of_encode_eq rfl (formatNNN_of_fields (congrArg BitVec.toNat hop))

/-- In family F the low byte selects: a word holds the instruction of the table that is encoded with its register and its low byte
(30_encoding R75). -/
theorem decodeWord_of_op_fifteen {w : Word} {i : Instr} {k : Nat} {nn : Byte} (hrow : i.row = some k)
    (henc : encode i = formatXNN 0xF (fieldX w) nn) (hop : fieldOp w = 0xF) (hnn : fieldNN w = nn) : decodeWord w = i :=
  decodeWord_of_encode_eq hrow (henc.trans (formatXNN_of_fields (congrArg BitVec.toNat hop) (congrArg BitVec.toNat hnn)))

/-- Settles O48: family A has one instruction, and that writes `I` only. -/
theorem loadIndex : Obligations.LoadIndex := by
  unfold Obligations.LoadIndex
  exact ⟨fun _ => decodeWord_of_op_ten,
    fun nnn s => ⟨s.setIndex _, rfl, BitVec.toNat_setWidth_of_le (by decide), setIndex_same s _⟩⟩

/-- The address is not reduced: that of the largest byte still fits 16 bits. -/
theorem glyphAddress_toNat (b : Byte) : (glyphAddress b).toNat = 0x050 + 5 * b.toNat := by
  have hlt := b.isLt
  exact (BitVec.toNat_ofNat ..).trans (Nat.mod_eq_of_lt (by simp only [Config.fontBase]; omega))

/-- Settles O50: `glyphAddress`, whose name the obligation shares, takes the whole byte, and `I` is all that is written. -/
theorem ldFVx_glyphAddress : Obligations.GlyphAddress := by
  unfold Obligations.GlyphAddress
  exact ⟨fun _ => decodeWord_of_op_fifteen rfl rfl,
    fun x s => ⟨s.setIndex _, rfl, glyphAddress_toNat (s.reg x), setIndex_same s _⟩⟩

/-- `I` plus a byte as a number (decision D6). -/
theorem index_add_byte_toNat (i : Word) (b : Byte) : (i + b.setWidth 16).toNat = (i.toNat + b.toNat) % 65536 := by
  rw [BitVec.toNat_add, BitVec.toNat_setWidth_of_le (by decide)]

theorem indexOverflow_iff {i : Word} {b : Byte} : indexOverflow i b = true ↔ i.toNat + b.toNat > 0xFFF := decide_eq_true_iff

/-- Settles O49, by whether the unreduced sum overflows: the flag is written then, and else nothing but `I` is. -/
theorem addToIndex : Obligations.AddToIndex := by
  unfold Obligations.AddToIndex
  intro x s
  by_cases h : s.index.toNat + (s.reg x).toNat > 0xFFF
  · refine ⟨(s.setIndex _).setFlag true, congrArg _ (if_pos (indexOverflow_iff.2 h)), index_add_byte_toNat s.index (s.reg x), ?_⟩
    rw [if_pos h]
    exact ⟨setReg_reg_self _ vf _, { setReg_same s vf (flagByte true) with index := nofun }⟩
  · refine ⟨s.setIndex _, congrArg _ (if_neg (mt indexOverflow_iff.1 h)), index_add_byte_toNat s.index (s.reg x), ?_⟩
    rw [if_neg h]
    exact setIndex_same s _

/-! The range check of a block access (R146, 60_exceptions R204) -/

theorem dataInRange_succ_iff (n : Nat) : s.dataInRange (n + 1) = true ↔ s.index.toNat + n ≤ 0xFFF := by
  rw [dataInRange_iff]
  simp only [Config.memSize]
  omega

/-- An access that goes past the top of memory halts before it does anything, whatever it would do (decision D11). -/
theorem checkedAccess_halts {n : Nat} (h : s.index.toNat + n > 0xFFF) (r : Result) :
    ∃ t, (if s.dataInRange (n + 1) then r else raise .memRange s) = .next t ∧ HaltedBy .memRange s t :=
  ⟨_, if_neg fun hin => Nat.not_le.2 h ((dataInRange_succ_iff n).1 hin), haltedBy_halt .memRange s⟩

theorem byteAt_of_read? {a : Nat} {b : Byte} (h : s.mem.read? a = some b) : s.byteAt a = b := by
  rw [State.byteAt, h, Option.getD_some]

/-! Stores (R143, R144) -/

/-- The three digits as numbers; each fits its byte (R143). -/
theorem decimalDigits_eq (b : Byte) :
    ∃ hundreds tens ones : Byte, decimalDigits b = [hundreds, tens, ones] ∧ hundreds.toNat = b.toNat / 100 ∧
      tens.toNat = b.toNat / 10 % 10 ∧ ones.toNat = b.toNat % 10 := by
  have hlt := b.isLt
  have hdigit {d : Nat} (hd : d < 256) : (BitVec.ofNat 8 d).toNat = d := Nat.mod_eq_of_lt hd
  exact ⟨_, _, _, rfl, hdigit (by omega), hdigit (by omega), hdigit (by omega)⟩

/-- Settles O51: in range the block that is stored is the digits of `V[x]`. -/
theorem storeDecimal : Obligations.StoreDecimal := by
  unfold Obligations.StoreDecimal
  refine fun x s => ⟨fun h => ?_, fun h => checkedAccess_halts h _⟩
  have hrange : s.dataInRange 3 = true := (dataInRange_succ_iff 2).2 h
  obtain ⟨hundreds, tens, ones, hdigits, hhundreds, htens, hones⟩ := decimalDigits_eq (s.reg x)
  obtain ⟨t, ht, hsame, hstored⟩ := storeBytes_spec (bs := [hundreds, tens, ones]) hrange
  refine ⟨t, (if_pos hrange).trans (hdigits ▸ ht), hsame, fun hwf => ?_⟩
  have hbyte (k : Nat) (hk : k < 3) : t.byteAt (s.index.toNat + k) = [hundreds, tens, ones][k] :=
    byteAt_of_read? ((hstored hwf).2 k hk)
  exact ⟨hbyte 0 (by decide) ▸ hhundreds, hbyte 1 (by decide) ▸ htens, hbyte 2 (by decide) ▸ hones⟩

/-- Settles O52: the registers in range are those `exec_ldMemVx_inRange` has stored. -/
theorem storeRegisters : Obligations.StoreRegisters := by
  unfold Obligations.StoreRegisters
  refine fun x s => ⟨fun h => ?_, fun h => checkedAccess_halts h _⟩
  obtain ⟨t, ht, hsame, hstored⟩ := exec_ldMemVx_inRange h
  exact ⟨t, ht, hsame, fun hwf r hr => byteAt_of_read? (hstored hwf r hr)⟩

/-! Loads (R145) -/

/-- The bytes a load of `V[0]` to `V[x]` reads, in order. -/
def loadedBytes (x : Reg) (s : State) : List Byte := (List.range (x.val + 1)).map fun k => s.mem.lookup (s.dataAddress k)

theorem length_loadedBytes (x : Reg) (s : State) : (loadedBytes x s).length = x.val + 1 := by
  rw [loadedBytes, List.length_map, List.length_range]

theorem getElem_loadedBytes {x : Reg} {k : Nat} (hk : k < (loadedBytes x s).length) (hin : s.index.toNat + k < Config.memSize) :
    (loadedBytes x s)[k] = s.byteAt (s.index.toNat + k) := by
  simp [loadedBytes, State.dataAddress, byteAt_eq_lookup hin]

theorem exec_ldVxMem_inRange {x : Reg} (h : s.index.toNat + x.val ≤ 0xFFF) :
    exec (.ldVxMem x) s = .next (s.setRegsFrom 0 (loadedBytes x s)) :=
  have hrange : s.dataInRange (x.val + 1) = true := (dataInRange_succ_iff x.val).2 h
  (if_pos hrange).trans (loadThen_eq hrange _)

/-- One byte for each register up to `V[x]`: they hold the bytes in order, and nothing else changes. -/
theorem setRegsFrom_upTo {x : Reg} {bs : List Byte} (hlen : bs.length = x.val + 1) :
    (∀ (r : Reg) (hr : r.val < bs.length), (s.setRegsFrom 0 bs).reg r = bs[r.val]) ∧
      SameExcept { regs := regsBelow x } s (s.setRegsFrom 0 bs) := by
  obtain ⟨hregs, v, hv⟩ := setRegsFrom_spec s 0 bs (by omega)
  refine ⟨fun r hr => by rw [hregs, dif_pos (by omega)]; rfl, ?_⟩
  have hother : ∀ r, r ∉ regsBelow x → (s.setRegsFrom 0 bs).reg r = s.reg r := fun r hr => by
    rw [mem_regsBelow] at hr
    rw [hregs, dif_neg (by omega)]
  rw [hv] at hother ⊢
  exact { sameExcept_rfl _ s with regs := hother }

/-- Settles O53: in range the registers up to `V[x]` take the bytes read. -/
theorem loadRegisters : Obligations.LoadRegisters := by
  unfold Obligations.LoadRegisters
  refine fun x s => ⟨fun h => ?_, fun h => checkedAccess_halts h _⟩
  have hlen := length_loadedBytes x s
  obtain ⟨hregs, hsame⟩ := setRegsFrom_upTo (s := s) hlen
  refine ⟨_, exec_ldVxMem_inRange h, hsame, fun r hr => ?_⟩
  have hr' : r.val < (loadedBytes x s).length := by omega
  exact (hregs r hr').trans (getElem_loadedBytes hr' (by simp only [Config.memSize]; omega))

end Sys2Proof.Machine

/-! PROOFS. The display (43_display R160 to R164): the clear, the pixels a run of sprite rows lies over, and the draw with its rows read
from memory. -/

namespace Sys2Proof.Machine

variable {s : State} {ox oy px py : Nat}

/-! The clear (R160) -/

/-- Settles O54: the blank frame is shown whatever the frame was. -/
theorem clearDisplay : Obligations.ClearDisplay := by
  unfold Obligations.ClearDisplay
  exact fun s => ⟨s.showFrame blankFrame, rfl, fun px py _ _ => getPixel_blankFrame px py, rfl, showFrame_same s blankFrame⟩

/-! A run of sprite rows (R162 to R164) -/

/-- Sprite rows drawn with their origin at `(ox, oy)` have a set bit over `(px, py)`: `State.spriteOver` of rows given as a list. -/
def rowsOver (rows : List Byte) (ox oy px py : Nat) : Bool :=
  decide (ox ≤ px ∧ px < ox + 8 ∧ oy ≤ py ∧ py < oy + rows.length) && spriteBit (rows.getD (py - oy) 0) (px - ox)

theorem getPixel_blitRows (rows : List Byte) (c : Canvas) (hpx : px < 64) (hpy : py < 32) :
    getPixel (blitRows ox oy rows c).fb px py = (getPixel c.fb px py ^^ rowsOver rows ox oy px py) :=
  blitRows_spec.1 px py hpx hpy

theorem collision_blitRows (rows : List Byte) (c : Canvas) :
    (blitRows ox oy rows c).collision = true ↔ c.collision = true ∨
      ∃ px py, px < 64 ∧ py < 32 ∧ rowsOver rows ox oy px py = true ∧ getPixel c.fb px py = true := by
  simp only [blitRows_spec.2, rowsOver, Bool.and_eq_true, decide_eq_true_iff, and_assoc]

/-- The bit over a pixel, named by its row and its place in the row. -/
theorem rowsOver_iff {rows : List Byte} :
    rowsOver rows ox oy px py = true ↔
      ∃ r b, ∃ h : r < rows.length, b < 8 ∧ rows[r].getLsbD (7 - b) = true ∧ px = ox + b ∧ py = oy + r := by
  simp only [rowsOver, spriteBit, Bool.and_eq_true, decide_eq_true_iff]
  constructor
  · rintro ⟨⟨hox, hx, hoy, hy⟩, hset⟩
    have hr : py - oy < rows.length := by omega
    rw [List.getD_eq_getElem _ _ hr] at hset
    exact ⟨py - oy, px - ox, hr, by omega, hset, by omega, by omega⟩
  · rintro ⟨r, b, hr, hb, hset, rfl, rfl⟩
    rw [Nat.add_sub_cancel_left, Nat.add_sub_cancel_left, List.getD_eq_getElem _ _ hr]
    exact ⟨by omega, hset⟩

/-- Inverting on a condition changes a pixel exactly when the condition holds. -/
theorem xor_ne_left_iff : ∀ {a b : Bool}, (a ^^ b) ≠ a ↔ b = true := by decide

/-- Settles O55: the compositor's account of pixels and collisions, each bit named by its row and its place in the row. -/
theorem blitInvertsSetBits : Obligations.BlitInvertsSetBits := by
  unfold Obligations.BlitInvertsSetBits
  refine fun rows ox py c _ _ => ⟨fun px qy hpx hqy => ?_, (collision_blitRows rows c).trans (or_congr_right ?_)⟩
  · rw [getPixel_blitRows rows c hpx hqy, xor_ne_left_iff, rowsOver_iff]
  · simp only [rowsOver_iff]
    constructor
    · rintro ⟨_, _, hpx, hqy, ⟨r, b, hr, hb, hset, rfl, rfl⟩, hon⟩
      exact ⟨r, b, hr, hb, hset, by omega, by omega, hon⟩
    · rintro ⟨r, b, hr, hb, hset, hx, hy, hon⟩
      exact ⟨ox + b, py + r, by omega, by omega, ⟨r, b, hr, hb, hset, rfl, rfl⟩, hon⟩

/-! The draw (R161) -/

/-- The `n` bytes from `I` up: the rows of the sprite a draw reads, in order (of no rows with `n = 0`, where `loadedBytes` has
at least one byte). -/
def spriteRows (s : State) (n : Nat) : List Byte := (List.range n).map fun r => s.mem.lookup (s.dataAddress r)

theorem length_spriteRows (s : State) (n : Nat) : (spriteRows s n).length = n := by
  rw [spriteRows, List.length_map, List.length_range]

/-- A row that is read is the byte of memory at its address. -/
theorem getD_spriteRows {n r : Nat} (h : s.dataInRange n = true) (hr : r < n) :
    (spriteRows s n).getD r 0 = s.byteAt (s.index.toNat + r) := by
  have hin : s.index.toNat + r < Config.memSize := by
    have := (dataInRange_iff n).1 h
    omega
  simp [spriteRows, hr, State.dataAddress, byteAt_eq_lookup hin]

theorem rowsOver_spriteRows {n : Nat} (h : s.dataInRange n = true) :
    rowsOver (spriteRows s n) ox oy px py = s.spriteOver ox oy n px py := by
  rw [rowsOver, State.spriteOver, length_spriteRows]
  by_cases hin : ox ≤ px ∧ px < ox + 8 ∧ oy ≤ py ∧ py < oy + n
  · rw [getD_spriteRows h (by omega), spriteBit]
  · rw [decide_eq_false hin, Bool.false_and, Bool.false_and]

/-- The canvas a draw of `n` rows leaves, its origin reduced to the frame (R161). -/
def drawnCanvas (x y : Reg) (n : Nat) (s : State) : Canvas :=
  blitRows ((s.reg x).toNat % 64) ((s.reg y).toNat % 32) (spriteRows s n) { fb := s.fb, collision := false }

theorem exec_drw_inRange {n : Fin 16} (h : s.dataInRange n.val = true) (x y : Reg) :
    exec (.drw x y n) s =
      .next ((s.setFlag (drawnCanvas x y n.val s).collision).showFrame (drawnCanvas x y n.val s).fb) :=
  (if_pos h).trans (loadThen_eq h _)

theorem getPixel_drawnCanvas {n : Nat} (h : s.dataInRange n = true) (x y : Reg) (hpx : px < 64) (hpy : py < 32) :
    getPixel (drawnCanvas x y n s).fb px py =
      (s.pixel px py ^^ s.spriteOver ((s.reg x).toNat % 64) ((s.reg y).toNat % 32) n px py) := by
  rw [drawnCanvas, getPixel_blitRows _ _ hpx hpy, rowsOver_spriteRows h, State.pixel]

theorem collision_drawnCanvas {n : Nat} (h : s.dataInRange n = true) (x y : Reg) :
    (drawnCanvas x y n s).collision = true ↔ ∃ px py, px < 64 ∧ py < 32 ∧
      s.spriteOver ((s.reg x).toNat % 64) ((s.reg y).toNat % 32) n px py = true ∧ s.pixel px py = true := by
  simp only [drawnCanvas, collision_blitRows, rowsOver_spriteRows h, Bool.false_eq_true, false_or, State.pixel]

/-- The range check of a draw, by the address of its last row (60_exceptions R204). -/
theorem dataInRange_iff_last (n : Nat) : s.dataInRange n = true ↔ n = 0 ∨ s.index.toNat + n - 1 ≤ 0xFFF := by
  rw [dataInRange_iff]
  simp only [Config.memSize]
  omega

theorem flagByte_eq_zero_or_one : ∀ f : Bool, flagByte f = 0 ∨ flagByte f = 1 := by decide

theorem flagByte_eq_one_iff : ∀ {f : Bool}, flagByte f = 1 ↔ f = true := by decide

/-- Settles O56: in range the draw shows `drawnCanvas` and writes its collision to `VF`, and else it halts before it reads a row. -/
theorem drawSprite : Obligations.DrawSprite := by
  unfold Obligations.DrawSprite
  refine fun x y n s => ⟨fun h => ?_, fun hn h => ?_⟩
  · have hrange : s.dataInRange n.val = true := (dataInRange_iff_last n.val).2 h
    have hvf (f : Bool) : (s.setFlag f).reg 15 = flagByte f := setReg_reg_self s vf (flagByte f)
    refine ⟨_, exec_drw_inRange hrange x y, fun px py => getPixel_drawnCanvas hrange x y, ?_, ?_, rfl,
      { setReg_same s vf _ with fb := nofun, redraw := nofun }⟩
    · rw [showFrame_reg, hvf]
      exact flagByte_eq_zero_or_one _
    · rw [showFrame_reg, hvf, flagByte_eq_one_iff]
      exact collision_drawnCanvas hrange x y
  · have hrange : ¬ s.dataInRange n.val = true := mt (dataInRange_iff_last n.val).1 (by omega)
    exact ⟨_, if_neg hrange, haltedBy_halt .memRange s⟩

end Sys2Proof.Machine

/-! PROOFS. The timers and the keys (44_timers_keys R170 to R178): what makes a timer rise, the host's two signals, the timer
registers, the instructions that read the keys. -/

namespace Sys2Proof.Machine

variable {s t : State}

/-! What makes a timer rise (R178) -/

theorem touches_dt (s : State) (i : Instr) : (touches s i).dt = false ∨ ∃ x, i = .ldDtVx x := by
  cases i
  case ldDtVx x => exact .inr ⟨x, rfl⟩
  case ldVxK => exact .inl (by simp only [touches, apply_ite Touched.dt, ite_self])
  all_goals exact .inl rfl

/-- An instruction that is no Fx15 leaves DT as it was. -/
theorem exec_dt {i : Instr} (h : exec i s = .next t) : t.dt = s.dt ∨ ∃ x, i = .ldDtVx x := by
  obtain ⟨hsame, -⟩ | ⟨c, -, rfl⟩ := exec_next h
  · exact (touches_dt s i).imp_left hsame.dt
  · exact .inl rfl

/-- An instruction that is no Fx18 leaves ST as it was. -/
theorem exec_st {i : Instr} (h : exec i s = .next t) : t.st = s.st ∨ ∃ x, i = .ldStVx x := by
  obtain ⟨hsame, -⟩ | ⟨c, -, rfl⟩ := exec_next h
  · exact (touches_st s i).imp_left hsame.st
  · exact .inl rfl

theorem countDown_toNat_le (b : Byte) : (countDown b).toNat ≤ b.toNat := by
  rw [countDown_toNat]
  exact Nat.sub_le b.toNat 1

theorem SameCore.timers_le {u : State} (h : SameCore s u) : u.dt.toNat ≤ s.dt.toNat ∧ u.st.toNat ≤ s.st.toNat :=
  ⟨h.dt ▸ le_rfl, h.st ▸ le_rfl⟩

/-- A step that runs no instruction raises neither timer: Reset clears both, Tick lowers them, nothing else touches them. -/
theorem idle_timers_le (h : StepTo s t) (hidle : s.stepRuns? = none) :
    t.dt.toNat ≤ s.dt.toNat ∧ t.st.toNat ≤ s.st.toNat := by
  cases h with
  | reset image u idle isReset legal eq => exact eq ▸ ⟨Nat.zero_le _, Nat.zero_le _⟩
  | tick u idle core eq => exact eq ▸ core.dt ▸ core.st ▸ ⟨countDown_toNat_le u.dt, countDown_toNat_le u.st⟩
  | frameAck u idle isFrameAck core eq => exact eq ▸ core.timers_le
  | stays idle core => exact core.timers_le
  | halts u c idle core cause eq => exact eq ▸ core.timers_le
  | runs u i ran core running eq => cases hidle.symm.trans ran

/-- Settles O26: a timer that rises was raised by an instruction, and each timer has one that writes it. -/
theorem timersRiseOnlyByWrite : Obligations.TimersRiseOnlyByWrite := by
  unfold Obligations.TimersRiseOnlyByWrite
  intro s t h
  have hst := stepTo_of_step h
  cases hran : s.stepRuns? with
  | none =>
    obtain ⟨hdt, hsound⟩ := idle_timers_le hst hran
    exact ⟨fun hrise => absurd hdt (Nat.not_le.2 hrise), fun hrise => absurd hsound (Nat.not_le.2 hrise)⟩
  | some i =>
    obtain ⟨u, hcore, hu⟩ := exec_of_stepRuns hst hran
    refine ⟨fun hrise => ?_, fun hrise => ?_⟩
    · obtain heq | ⟨x, rfl⟩ := exec_dt hu
      · exact absurd hrise (heq.trans hcore.dt ▸ Nat.lt_irrefl _)
      · exact ⟨x, rfl⟩
    · obtain heq | ⟨x, rfl⟩ := exec_st hu
      · exact absurd hrise (heq.trans hcore.st ▸ Nat.lt_irrefl _)
      · exact ⟨x, rfl⟩

/-! Tick and FrameAck (R170, 43_display R165) -/

theorem tick_same (s : State) : SameExcept { dt := true, st := true } s s.tick :=
  { sameExcept_rfl _ s with dt := nofun, st := nofun }

theorem frameAck_same (s : State) : SameExcept { redraw := true } s s.frameAck :=
  { sameExcept_rfl _ s with redraw := nofun }

theorem step_of_schedule_cons {op : HostOp} {rest : List HostOp} (h : s.schedule = op :: rest) :
    step s = hostOp op { s with schedule := rest } := by
  rw [step, nextOp_cons h]

/-- Settles O14: both operations complete whatever `run` is. -/
theorem tickAndFrameAck : Obligations.TickAndFrameAck := by
  unfold Obligations.TickAndFrameAck
  refine ⟨fun s rest h => ?_, fun s rest h => ?_⟩
  · exact ⟨_, step_of_schedule_cons h, countDown_toNat s.dt, countDown_toNat s.st, tick_same _⟩
  · exact ⟨_, step_of_schedule_cons h, rfl, frameAck_same _⟩

/-! The timer registers (R171 to R173) -/

/-- Settles O57: family F selects by the low byte, and each of the three writes its one destination. -/
theorem timerRegisters : Obligations.TimerRegisters := by
  unfold Obligations.TimerRegisters
  refine ⟨fun w hop => ?_, fun x s => ?_⟩
  · exact ⟨decodeWord_of_op_fifteen rfl rfl hop, decodeWord_of_op_fifteen rfl rfl hop, decodeWord_of_op_fifteen rfl rfl hop⟩
  · exact ⟨⟨s.setReg x s.dt, rfl, setReg_reg_self s x s.dt, setReg_same s x s.dt⟩,
      ⟨s.setDt (s.reg x), rfl, rfl, setDt_same s _⟩, ⟨s.setSt (s.reg x), rfl, rfl, setSt_same s _⟩⟩

/-! The skips on a key (R175, R176) -/

/-- A key index above 15 halts, whatever the skip would do (decision D13). -/
theorem keySkip_halts {k : Nat} (h : k > 15) (c : Bool) (s : State) :
    ∃ t, (if k > 15 then raise .keyRange s else skipIf c s) = .next t ∧ HaltedBy .keyRange s t :=
  ⟨_, if_pos h, haltedBy_halt .keyRange s⟩

/-- A skip on a condition that does not hold. -/
theorem skipIf_not_toNat (c : Bool) (s : State) :
    ∃ t, skipIf (!c) s = .next t ∧ t.pc.toNat = (if c then s.pc.toNat else (s.pc.toNat + 2) % 4096) ∧
      SameExcept { pc := true } s t := by
  simpa only [Bool.not_eq_true', ← Bool.not_eq_true, ite_not] using skipIf_toNat (!c) s

/-- Settles O58, by whether the key index is in range. -/
theorem skipsOnKey : Obligations.SkipsOnKey := by
  unfold Obligations.SkipsOnKey
  refine fun x s => ⟨fun h => ?_, fun h => ⟨keySkip_halts h _ s, keySkip_halts h _ s⟩⟩
  have hin : ¬ (s.reg x).toNat > 15 := Nat.not_lt.2 h
  simp only [exec, execSkp, execSknp, if_neg hin]
  exact ⟨skipIf_toNat (s.isDown _) s, skipIf_not_toNat (s.isDown _) s⟩

/-! The wait for a key (R177) -/

/-- With no key down the execute step takes the Cycle's advance back and does nothing else. -/
theorem exec_ldVxK_noKey (x : Reg) (h : s.keys = 0) : exec (.ldVxK x) s.advance = .next s := by
  have hnone : s.advance.firstDown = none := firstDown_eq_none.2 h
  have hback : s.advance.setPc (s.advance.pc - 2) = s := by
    rw [advance_pc, BitVec.add_sub_cancel]
    rfl
  simp only [exec, execLdVxK, hnone, hback]

theorem exec_ldVxK_firstDown (x : Reg) {k : Nat} (h : s.firstDown = some k) :
    exec (.ldVxK x) s = .next (s.setReg x (BitVec.ofNat 8 k)) := by
  simp only [exec, execLdVxK, h]

/-- Settles O59, by whether a key is down; the number of a key fits a byte. -/
theorem waitForKey : Obligations.WaitForKey := by
  unfold Obligations.WaitForKey
  refine ⟨fun x s h => ⟨s, exec_ldVxK_noKey x h, rfl, sameExcept_rfl _ s⟩, fun x s k hk hdown hleast => ?_⟩
  have hfirst : s.firstDown = some k := firstDown_eq_some.2 ⟨hk, hdown, hleast⟩
  refine ⟨_, exec_ldVxK_firstDown x hfirst, ?_, setReg_same s x _⟩
  rw [setReg_reg_self, BitVec.toNat_ofNat, Nat.mod_eq_of_lt (by omega)]

end Sys2Proof.Machine

/-! PROOFS. Halting and what a Cycle reports (60_exceptions R200 to R220): entry into Halted before the execute step, staying Halted,
the status, the diagnostic event. -/

namespace Sys2Proof.Machine

variable {s : State}

/-! The Cycles that run no instruction (R210) -/

theorem cycle_eq_of_halted (h : s.run = .halted) : cycle s = .next s := by
  obtain ⟨-, -, hc⟩ | ⟨hrun, -⟩ | ⟨hrun, -⟩ | ⟨hrun, -⟩ := cycle_cases s
  · exact hc
  all_goals cases h.symm.trans hrun

theorem cycle_eq_halt_stopRequest (hrun : s.run = .running) (hstop : s.stopReq = true) :
    cycle s = .next (s.halt .stopRequest) := by
  obtain ⟨hhalted, -⟩ | ⟨-, -, -, hc⟩ | ⟨-, hno, -⟩ | ⟨-, hno, -⟩ := cycle_cases s
  · cases hrun.symm.trans hhalted
  · exact hc
  all_goals cases hstop.symm.trans hno

theorem cycle_eq_halt_fetchRange (hrun : s.run = .running) (hstop : s.stopReq = false) (hpc : s.pc = 0xFFF#12) :
    cycle s = .next (s.halt .fetchRange) := by
  obtain ⟨hhalted, -⟩ | ⟨-, hreq, -⟩ | ⟨-, -, -, -, hc⟩ | ⟨-, -, hlow, -⟩ := cycle_cases s
  · cases hrun.symm.trans hhalted
  · cases hstop.symm.trans hreq
  · exact hc
  · exact absurd hpc hlow

/-- Settles O15: the stop request is tested before `pc` is looked at. -/
theorem stopRequestHalts : Obligations.StopRequestHalts := by
  unfold Obligations.StopRequestHalts
  rintro s ⟨keys, stopReq, rnd⟩ rest hsched rfl hrun
  refine ⟨_, ?_, rfl, haltedBy_halt .stopRequest _⟩
  rw [step_of_nextOp_cycle (nextOp_cons hsched)]
  exact cycle_eq_halt_stopRequest hrun rfl

/-- Settles O16: the fetch range is tested before `pc` advances. -/
theorem fetchAtTopHalts : Obligations.FetchAtTopHalts := by
  unfold Obligations.FetchAtTopHalts
  rintro s ⟨keys, stopReq, rnd⟩ rest hsched rfl hrun hpc
  refine ⟨_, ?_, rfl, haltedBy_halt .fetchRange _⟩
  rw [step_of_nextOp_cycle (nextOp_cons hsched)]
  exact cycle_eq_halt_fetchRange hrun rfl hpc

/-- Settles O17: the Cycle stops at its first test; the status is read from `run` and `haltCause` alone. -/
theorem haltedCycleChangesNothing : Obligations.HaltedCycleChangesNothing := by
  unfold Obligations.HaltedCycleChangesNothing
  intro s inputs rest hsched hrun
  refine ⟨({ s with schedule := rest } : State).sample inputs, ?_, rfl, rfl⟩
  rw [step_of_nextOp_cycle (nextOp_cons hsched)]
  exact cycle_eq_of_halted hrun

/-! Leaving Halted (R211) -/

/-- Settles O18, by the ways a step goes: a Cycle finds the core still Halted and leaves it so, Tick and FrameAck touch neither
`run` nor `haltCause`. -/
theorem onlyResetLeavesHalted : Obligations.OnlyResetLeavesHalted := by
  unfold Obligations.OnlyResetLeavesHalted
  intro s t h hs hnoReset
  have hcore := sameCore_nextOp s
  have hu : (nextOp s).2.run = .halted ∧ (nextOp s).2.haltCause = s.haltCause := ⟨hcore.run.trans hs, hcore.haltCause⟩
  obtain ⟨image, u, hop, -⟩ | ⟨image, u, -, -, hstep⟩ | ⟨inputs, u, hop, hstep⟩ | ⟨u, hop, hstep⟩ | ⟨u, hop, hstep⟩ := step_cases s
  · simp [State.nextIsReset, hop] at hnoReset
  · cases h.symm.trans hstep
  all_goals rw [hop] at hu
  · rw [cycle_eq_of_halted (s := u.sample inputs) hu.1] at hstep
    cases h.symm.trans hstep
    exact hu
  all_goals
    cases h.symm.trans hstep
    exact hu

/-! The diagnostic event (R220) -/

theorem running?_eq_some_iff {i : Instr} :
    s.running? = some i ↔
      (s.run = .running ∧ s.stopReq = false ∧ s.pc ≠ 0xFFF#12) ∧ ∃ w, s.fetch? = some w ∧ decodeWord w = i := by
  rw [State.running?, Option.ite_none_right_eq_some, Option.map_eq_some_iff]

theorem diag_eq_some_iff {w : Word} {a : Addr} :
    s.diag = some (w, a) ↔
      (s.run = .running ∧ s.stopReq = false ∧ s.pc ≠ 0xFFF#12) ∧
        s.fetch? = some w ∧ (decodeWord w).row = none ∧ s.pc = a := by
  rw [State.diag, Option.ite_none_right_eq_some]
  refine and_congr_right fun _ => ?_
  cases s.fetch? with
  | none => simp
  | some v =>
    simp only [Option.ite_none_right_eq_some, Option.some.injEq, Prod.mk.injEq]
    constructor
    · rintro ⟨hrow, rfl, rfl⟩
      exact ⟨rfl, hrow, rfl⟩
    · rintro ⟨rfl, hrow, rfl⟩
      exact ⟨hrow, rfl, rfl⟩

/-- An undefined opcode carries the word it was decoded from. -/
theorem decodeWord_eq_undef {v w : Word} : decodeWord v = .undef w ↔ v = w ∧ (decodeWord v).row = none := by
  rw [← decodeWord_eq_undef_iff]
  constructor
  · intro h
    obtain rfl : v = w := (encode_decodeWord v).symm.trans (congrArg encode h)
    exact ⟨rfl, h⟩
  · rintro ⟨rfl, h⟩
    exact h

/-- Settles O20: event and instruction come from the same fetched word, which an undefined opcode carries. -/
theorem diagReportsUndefined : Obligations.DiagReportsUndefined := by
  unfold Obligations.DiagReportsUndefined
  intro s w a
  simp only [diag_eq_some_iff, running?_eq_some_iff, decodeWord_eq_undef]
  constructor
  · rintro ⟨hruns, hfetch, hrow, hpc⟩
    exact ⟨⟨hruns, w, hfetch, rfl, hrow⟩, hpc⟩
  · rintro ⟨⟨hruns, v, hfetch, rfl, hrow⟩, hpc⟩
    exact ⟨hruns, hfetch, hrow, hpc⟩

/-! The status (R212) -/

theorem status_of_running (h : s.run = .running) : s.status = .continue_ := by
  rw [State.status, h]

theorem status_of_halted (h : s.run = .halted) :
    s.status = if s.haltCause = .stopRequest then .stopClean else .fatal s.haltCause.code := by
  rw [State.status, h]

/-- The causes with a code from 2 up are the fatal conditions. -/
theorem two_le_code_iff {c : HaltCause} : 2 ≤ c.code.toNat ↔ c ≠ .none ∧ c ≠ .stopRequest := by
  cases c <;> decide

/-- Settles O19, by the run state: while Running there is no cause; once Halted there is one, the stop request or a fatal one. -/
theorem statusReportsHaltCause : Obligations.StatusReportsHaltCause := by
  unfold Obligations.StatusReportsHaltCause
  refine ⟨⟨rfl, rfl, rfl, rfl, rfl, rfl, rfl⟩, fun s hs => ?_⟩
  cases hrun : s.run with
  | running =>
    have hnone : s.haltCause = .none := hs.cause.2 hrun
    rw [status_of_running hrun, hnone]
    refine ⟨iff_of_true rfl rfl, iff_of_false nofun nofun, fun c => iff_of_false nofun ?_⟩
    rintro ⟨rfl, hfatal⟩
    exact (two_le_code_iff.1 hfatal).1 rfl
  | halted =>
    have hcause : s.haltCause ≠ .none := fun h => nomatch hrun.symm.trans (hs.cause.1 h)
    rw [status_of_halted hrun]
    by_cases hstop : s.haltCause = .stopRequest
    · rw [if_pos hstop]
      refine ⟨iff_of_false nofun nofun, iff_of_true rfl hstop, fun c => iff_of_false nofun ?_⟩
      rintro ⟨rfl, hfatal⟩
      exact (two_le_code_iff.1 hfatal).2 hstop
    · rw [if_neg hstop]
      refine ⟨iff_of_false nofun nofun, iff_of_false nofun hstop, fun c => ?_⟩
      rw [Status.fatal.injEq]
      refine (and_iff_left_of_imp ?_).symm
      rintro rfl
      exact two_le_code_iff.2 ⟨hcause, hstop⟩

end Sys2Proof.Machine

/-! PROOFS. Reset with an image, what a step refuses, the jump to itself (70_reset_and_hazards R230, R231, R237). -/

namespace Sys2Proof.Machine

variable {s : State}

/-! Memory after Reset (R230) -/

theorem progBase_add_length_le {image : List Byte} (h : image.length ≤ Config.progMax) :
    Config.progBase + image.length ≤ Config.memSize := by
  simp only [Config.progBase, Config.memSize, Config.progMax] at h ⊢
  omega

theorem byteAt_resetTo_image {image : List Byte} (h : image.length ≤ Config.progMax) {k : Nat} (hk : k < image.length) :
    (s.resetTo image).byteAt (Config.progBase + k) = image[k] := by
  have hfit := progBase_add_length_le h
  rw [byteAt_eq_lookup (by omega), resetTo_mem, lookup_imageCells hfit, dif_pos (by omega)]
  simp only [Nat.add_sub_cancel_left]

theorem byteAt_resetTo_outside {image : List Byte} (h : image.length ≤ Config.progMax) {a : Nat}
    (ha : a < Config.progBase ∨ Config.progBase + image.length ≤ a) :
    (s.resetTo image).byteAt a = State.reset.byteAt a := by
  by_cases hlt : a < Config.memSize
  · rw [byteAt_eq_lookup hlt, resetTo_mem, lookup_imageCells (progBase_add_length_le h), dif_neg (by omega), byteAt_reset hlt]
  · simp only [State.byteAt, read?_ge (Nat.not_lt.1 hlt)]

/-- Settles O12: but for memory the core is as `resetState` has it; the bytes are those of the image laid over the reset memory. -/
theorem resetLoadsImage : Obligations.ResetLoadsImage := by
  unfold Obligations.ResetLoadsImage
  intro s image rest hsched
  rw [step_of_schedule_cons hsched]
  obtain ⟨-, -, -, -, hstack, hpixel, -⟩ := resetState
  split
  next hlen =>
    exact ⟨_, if_pos hlen, resetTo_reg _ image, rfl, rfl, rfl, hstack, hpixel, rfl, rfl, rfl, rfl, rfl,
      fun k => byteAt_resetTo_image hlen, fun a => byteAt_resetTo_outside hlen, (inv_resetTo hlen).memory,
      rfl, rfl, rfl, rfl, rfl⟩
  next hlen => exact if_neg hlen

/-! Refusals (R231) -/

/-- A Cycle comes to a next state, whatever it runs. -/
theorem cycle_answers (s : State) : ∃ t, cycle s = .next t := by
  obtain ⟨-, -, hc⟩ | ⟨-, -, -, hc⟩ | ⟨-, -, -, -, hc⟩ | ⟨-, -, -, i, -, -, hc⟩ := cycle_cases s
  · exact ⟨_, hc⟩
  · exact ⟨_, hc⟩
  · exact ⟨_, hc⟩
  · exact hc ▸ exec_answers i s.advance

/-- A Reset is never the host's next operation of itself: it stands at the head of the schedule. -/
theorem schedule_of_nextOp_reset {image : List Byte} {u : State} (h : nextOp s = (.reset image, u)) :
    s.schedule = .reset image :: u.schedule := by
  cases hsched : s.schedule with
  | nil =>
    rw [nextOp_nil hsched] at h
    cases h
  | cons op rest =>
    rw [nextOp_cons hsched] at h
    cases h
    rfl

/-- Settles O24, by the ways a step goes: all but the Reset with too long an image come to a next state. -/
theorem onlyLongImagesRefused : Obligations.OnlyLongImagesRefused := by
  unfold Obligations.OnlyLongImagesRefused
  intro s r h
  obtain ⟨_, _, -, -, hstep⟩ | ⟨image, u, hop, hlong, hstep⟩ | ⟨inputs, u, -, hstep⟩ | ⟨_, -, hstep⟩ | ⟨_, -, hstep⟩ :=
    step_cases s
  · cases h.symm.trans hstep
  · cases h.symm.trans hstep
    exact ⟨rfl, image, u.schedule, schedule_of_nextOp_reset hop, hlong⟩
  · obtain ⟨t, ht⟩ := cycle_answers (u.sample inputs)
    cases h.symm.trans (hstep.trans ht)
  · cases h.symm.trans hstep
  · cases h.symm.trans hstep

/-! The jump to itself (R237) -/

/-- Settles O33: the Cycle runs the jump, which puts back the `pc` that the Cycle has advanced. -/
theorem jumpToSelfIsFixedPoint : Obligations.JumpToSelfIsFixedPoint := by
  unfold Obligations.JumpToSelfIsFixedPoint
  intro s inputs rest hsched hstop hrun hpc hword
  obtain ⟨hcycle, -⟩ := stepRunsDecodedInstruction
  rw [hcycle s inputs rest hsched hstop hrun hpc, hword, decodeWord_encode_of_row rfl]
  rfl

end Sys2Proof.Machine
